-- ==== Sys2Proof/Word.lean ====
section
/-! DEFINITION. The word types of the block. Every width is one the spec names (00_scope.md R5, R13). -/

namespace Sys2Proof

/-- An octet (20_memory.md R60: "The byte is 8 bits"). -/
abbrev Byte := BitVec 8

/-- A CRC word (41_crc.md R141). -/
abbrev Crc := BitVec 16

/-- A command word `cw` (30_encoding.md R80). -/
abbrev Word := BitVec 32

/-- A transaction operand `opa`, `opb`, or a result `res` (00_scope.md R5). -/
abbrev Operand := BitVec 64

end Sys2Proof
end

