-- ==== Sys2Proof/Syntax.lean ====
section
/-! DEFINITION. Transactions, and the sixteen commands of LDC-CMD revision 1: one constructor per row of
spec/opcode_table.json. A command carries its fields and the operands its format uses (30_encoding.md R81;
log entry 3). -/

namespace Sys2Proof

/-- What the host sends: the triple `(cw, opa, opb)` (00_scope.md R5). -/
structure Transaction where
  cw : Word
  opa : Operand
  opb : Operand
  deriving DecidableEq, Repr

/-- The target bit `T` of formats T and W (30_encoding.md R82): the BitBuffer or the view. -/
inductive Target where
  | buffer
  | view
  deriving DecidableEq, Repr

/-- The commands (30_encoding.md R84). Field widths are those of the formats (R81). -/
inductive Instr where
  /-- `RDSR`, 44_system.md R190. -/
  | rdsr (sr : BitVec 8)
  /-- `BBWRITE`, 40_bitbuffer.md R111. -/
  | bbwrite (width : BitVec 8) (value : Operand)
  /-- `BBREAD` and `BBREAD.V`, 40_bitbuffer.md R113. -/
  | bbread (target : Target) (width : BitVec 8)
  /-- `BBPEEK` and `BBPEEK.V`, 40_bitbuffer.md R114. -/
  | bbpeek (target : Target) (width : BitVec 8)
  /-- `BBREM` and `BBREM.V`, 40_bitbuffer.md R115. -/
  | bbrem (target : Target)
  /-- `BBRESET`, 40_bitbuffer.md R117. -/
  | bbreset
  /-- `BBSLICE`, 40_bitbuffer.md R119. -/
  | bbslice (start length : Operand)
  /-- `CRCCOMP`, 41_crc.md R145. -/
  | crccomp (start length : Operand)
  /-- `CRCVERIFY`, 41_crc.md R146. -/
  | crcverify (exp : Crc) (start length : Operand)
  /-- `FICCFG`, 42_frame_fic.md R164. -/
  | ficcfg (n : BitVec 8)
  /-- `FICNEW`, 42_frame_fic.md R165. -/
  | ficnew
  /-- `FIBLATCH`, 42_frame_fic.md R166. -/
  | fiblatch
  /-- `FIBCOMMIT`, 42_frame_fic.md R167. -/
  | fibcommit
  /-- `FIBRD`, 42_frame_fic.md R168. -/
  | fibrd (idx : BitVec 2) (off : BitVec 5)
  /-- `MSCCFG`, 43_frame_msc.md R181. -/
  | msccfg (hc : Bool) (id : BitVec 8) (plen : Operand)
  /-- `MSCPARSE`, 43_frame_msc.md R183. -/
  | mscparse (id : BitVec 8)
  deriving DecidableEq, Repr

/-- Whether the command's format uses `opa` (30_encoding.md R81). -/
def Instr.usesOpa : Instr → Bool
  | .bbwrite _ _ | .bbslice _ _ | .crccomp _ _ | .crcverify _ _ _ | .msccfg _ _ _ => true
  | .rdsr _ | .bbread _ _ | .bbpeek _ _ | .bbrem _ | .bbreset | .ficcfg _ | .ficnew | .fiblatch | .fibcommit
  | .fibrd _ _ | .mscparse _ => false

/-- Whether the command's format uses `opb` (30_encoding.md R81). -/
def Instr.usesOpb : Instr → Bool
  | .bbslice _ _ | .crccomp _ _ | .crcverify _ _ _ => true
  | .bbwrite _ _ | .msccfg _ _ _ | .rdsr _ | .bbread _ _ | .bbpeek _ _ | .bbrem _ | .bbreset | .ficcfg _ | .ficnew
  | .fiblatch | .fibcommit | .fibrd _ _ | .mscparse _ => false

end Sys2Proof
end

