-- ==== Sys2Proof/Decode.lean ====
section
/-! DEFINITION. The decoder, from the match and mask table of 30_encoding.md R83 and R84, and the encoder, from the
format table of R81. Decoding is total: every transaction is one command or is rejected by name (R83, R85). -/

namespace Sys2Proof

/-! ### The fields of a command word (30_encoding.md R81) -/

/-- `WIDTH`, `IMM8` or `ID`: `cw[7:0]`. -/
def fieldLow8 (cw : Word) : BitVec 8 := cw.extractLsb' 0 8

/-- `T = cw[23]`: 0 is the BitBuffer, 1 the view (R82). -/
def fieldTarget (cw : Word) : Target := if cw.getLsbD 23 then .view else .buffer

/-- `EXP = cw[15:0]`. -/
def fieldExp (cw : Word) : Crc := cw.extractLsb' 0 16

/-- `HC = cw[8]`. -/
def fieldHc (cw : Word) : Bool := cw.getLsbD 8

/-- `IDX = cw[9:8]`. -/
def fieldIdx (cw : Word) : BitVec 2 := cw.extractLsb' 8 2

/-- `OFF = cw[4:0]`. -/
def fieldOff (cw : Word) : BitVec 5 := cw.extractLsb' 0 5

/-! ### The opcode map (30_encoding.md R84) -/

/-- One row of the opcode map: a word `cw` encodes the row's command exactly when `(cw & mask) = match`. -/
structure OpcodeRow where
  mtch : Word
  mask : Word
  build : Transaction → Instr

/-- `(cw & mask) = match` (30_encoding.md R83). -/
def OpcodeRow.accepts (r : OpcodeRow) (cw : Word) : Bool := cw &&& r.mask == r.mtch

/-- The sixteen rows, in the order of 30_encoding.md R84. -/
def opcodeTable : List OpcodeRow :=
  [ ⟨0x01000000#32, 0xFFFFFF00#32, fun t => .rdsr (fieldLow8 t.cw)⟩,
    ⟨0x10000000#32, 0xFFFFFF00#32, fun t => .bbwrite (fieldLow8 t.cw) t.opa⟩,
    ⟨0x11000000#32, 0xFF7FFF00#32, fun t => .bbread (fieldTarget t.cw) (fieldLow8 t.cw)⟩,
    ⟨0x12000000#32, 0xFF7FFF00#32, fun t => .bbpeek (fieldTarget t.cw) (fieldLow8 t.cw)⟩,
    ⟨0x13000000#32, 0xFF7FFFFF#32, fun t => .bbrem (fieldTarget t.cw)⟩,
    ⟨0x14000000#32, 0xFFFFFFFF#32, fun _ => .bbreset⟩,
    ⟨0x15000000#32, 0xFFFFFFFF#32, fun t => .bbslice t.opa t.opb⟩,
    ⟨0x20000000#32, 0xFFFFFFFF#32, fun t => .crccomp t.opa t.opb⟩,
    ⟨0x21000000#32, 0xFFFF0000#32, fun t => .crcverify (fieldExp t.cw) t.opa t.opb⟩,
    ⟨0x30000000#32, 0xFFFFFF00#32, fun t => .ficcfg (fieldLow8 t.cw)⟩,
    ⟨0x31000000#32, 0xFFFFFFFF#32, fun _ => .ficnew⟩,
    ⟨0x32000000#32, 0xFFFFFFFF#32, fun _ => .fiblatch⟩,
    ⟨0x33000000#32, 0xFFFFFFFF#32, fun _ => .fibcommit⟩,
    ⟨0x34000000#32, 0xFFFFFCE0#32, fun t => .fibrd (fieldIdx t.cw) (fieldOff t.cw)⟩,
    ⟨0x38000000#32, 0xFFFFFE00#32, fun t => .msccfg (fieldHc t.cw) (fieldLow8 t.cw) t.opa⟩,
    ⟨0x39000000#32, 0xFFFFFF00#32, fun t => .mscparse (fieldLow8 t.cw)⟩ ]

/-! ### Decoding -/

/-- Why a word is no command (30_encoding.md R85). -/
inductive Illegal where
  /-- (a) `cw[31:24]` is not one of the sixteen opcodes. -/
  | unknownOpcode
  /-- (b) a listed opcode with a 1 in a bit its format requires to be zero. -/
  | reservedBitSet
  deriving DecidableEq, Repr

/-- `OPC = cw[31:24]` is one of the sixteen (30_encoding.md R84). -/
def opcodeListed (cw : Word) : Bool :=
  opcodeTable.any fun r => r.mtch.extractLsb' 24 8 == cw.extractLsb' 24 8

/-- The command a transaction carries, or why its word is none (30_encoding.md R83, R85). -/
def decode (t : Transaction) : Except Illegal Instr :=
  match opcodeTable.find? fun r => r.accepts t.cw with
  | some r => .ok (r.build t)
  | none => .error (if opcodeListed t.cw then .reservedBitSet else .unknownOpcode)

/-- The transaction in an instruction's bits: `w[31:0]` is `cw`, `w[95:32]` is `opa` and `w[159:96]` is `opb`
(log entry 3). Bits at and above `nbits` read 0. -/
def transactionOfBits (nbits w : Nat) : Transaction :=
  let v := w % 2 ^ nbits
  ⟨BitVec.ofNat 32 v, BitVec.ofNat 64 (v / 2 ^ 32), BitVec.ofNat 64 (v / 2 ^ 96)⟩

/-- The instruction the decoder reads from an opcode-table word of `nbits` bits. -/
def decodeTableWord (nbits w : Nat) : Option Instr :=
  match decode (transactionOfBits nbits w) with
  | .ok i => some i
  | .error _ => none

/-! ### Encoding: the formats of 30_encoding.md R81 -/

/-- Formats Z and R: the opcode and zeros. -/
def formatZ (opc : BitVec 8) : Word := opc ++ 0#24

/-- The value of the bit `T`. -/
def targetBit : Target → BitVec 1
  | .buffer => 0#1
  | .view => 1#1

/-- Format T. -/
def formatT (opc : BitVec 8) (t : Target) : Word := opc ++ targetBit t ++ 0#23

/-- Format W. -/
def formatW (opc : BitVec 8) (t : Target) (width : BitVec 8) : Word := opc ++ targetBit t ++ 0#15 ++ width

/-- Format V. -/
def formatV (opc : BitVec 8) (exp : Crc) : Word := opc ++ 0#8 ++ exp

/-- Format I. -/
def formatI (opc : BitVec 8) (imm : BitVec 8) : Word := opc ++ 0#16 ++ imm

/-- Format C. -/
def formatC (opc : BitVec 8) (hc : Bool) (id : BitVec 8) : Word := opc ++ 0#15 ++ BitVec.ofBool hc ++ id

/-- Format F. -/
def formatF (opc : BitVec 8) (idx : BitVec 2) (off : BitVec 5) : Word := opc ++ 0#14 ++ idx ++ 0#3 ++ off

/-- The transaction that carries a command; an operand the command does not use is sent as 0 (30_encoding.md
R87). -/
def encode : Instr → Transaction
  | .rdsr sr => ⟨formatI 0x01#8 sr, 0, 0⟩
  | .bbwrite width value => ⟨formatW 0x10#8 .buffer width, value, 0⟩
  | .bbread t width => ⟨formatW 0x11#8 t width, 0, 0⟩
  | .bbpeek t width => ⟨formatW 0x12#8 t width, 0, 0⟩
  | .bbrem t => ⟨formatT 0x13#8 t, 0, 0⟩
  | .bbreset => ⟨formatZ 0x14#8, 0, 0⟩
  | .bbslice start length => ⟨formatZ 0x15#8, start, length⟩
  | .crccomp start length => ⟨formatZ 0x20#8, start, length⟩
  | .crcverify exp start length => ⟨formatV 0x21#8 exp, start, length⟩
  | .ficcfg n => ⟨formatI 0x30#8 n, 0, 0⟩
  | .ficnew => ⟨formatZ 0x31#8, 0, 0⟩
  | .fiblatch => ⟨formatZ 0x32#8, 0, 0⟩
  | .fibcommit => ⟨formatZ 0x33#8, 0, 0⟩
  | .fibrd idx off => ⟨formatF 0x34#8 idx off, 0, 0⟩
  | .msccfg hc id plen => ⟨formatC 0x38#8 hc id, plen, 0⟩
  | .mscparse id => ⟨formatI 0x39#8 id, 0, 0⟩

end Sys2Proof
end

