-- ==== Sys2Proof/Config.lean ====
section
/-! DEFINITION. The three implementation parameters of the block (00_scope.md R10). They are arguments of the
model: `State.cfg` carries them, no command and no reset event changes them, and statements quantify over them
(log entry 4). -/

namespace Sys2Proof

/-- The parameters of one instance of the block (00_scope.md R10). -/
structure Params where
  /-- `CAP_BYTES`: byte capacity of the bit store. -/
  capBytes : Nat
  /-- `NSUBCH`: number of rows of the subchannel table. -/
  nsubch : Nat
  /-- `CRC_XOROUT`: the word XORed onto the CRC register to give the CRC (41_crc.md R143). -/
  crcXorout : Crc
  deriving DecidableEq, Repr

/-- `CAP_BITS = 8 * CAP_BYTES`. -/
def Params.capBits (p : Params) : Nat := 8 * p.capBytes

/-- The legal values of the parameters (00_scope.md R10). -/
abbrev Params.legal (p : Params) : Prop :=
  (1 ≤ p.capBytes ∧ p.capBytes ≤ 2 ^ 60) ∧ (1 ≤ p.nsubch ∧ p.nsubch ≤ 256)

/-- The instance behind `State.reset`. `NSUBCH = 64` and `CRC_XOROUT = 0x0000` are the spec's defaults
(00_scope.md R10); `CAP_BYTES` has none and 64 is a DESIGN CHOICE (log entry 4), unsafe for a claim that rests on
it. -/
def Params.default : Params := ⟨64, 64, 0x0000#16⟩

end Sys2Proof
end

