-- ==== Sys2Proof/Machine/State.lean ====
section
/-! DEFINITION. The machine's state as plain data (10_state.md), its outcomes, and the state after reset
(10_state.md R44). Cursors, ranges and counts are natural numbers, as the spec has them (R23 to R31; log entry 9). -/

namespace Sys2Proof.Machine

/-- The bit store as storage bytes: (byte address, byte), addresses rising, no byte 0 listed; an unlisted byte is 0
(10_state.md R22; log entry 5). -/
abbrev Memory := List Host.Cell

/-- The states of the FIC assembly machine (10_state.md R30). -/
inductive FState where
  | awaitingFib
  | fibComplete
  | frameComplete
  deriving DecidableEq, Repr

/-- The view registers `VWVALID`, `VWBASE`, `VWLEN`, `VWRD` (10_state.md R26). -/
structure View where
  valid : Bool
  base : Nat
  len : Nat
  rd : Nat
  deriving DecidableEq, Repr

/-- No view. -/
def View.none : View := ⟨false, 0, 0, 0⟩

/-- A FIB record `F[0 .. 31]`: 30 payload bytes, then the CRC field, high byte first (42_frame_fic.md R160). -/
abbrev Fib := Vector Byte 32

/-- A row of the subchannel table: `CFGD`, `PLEN`, `HC` (10_state.md R37). -/
structure SubchRow where
  cfgd : Bool
  plen : Operand
  hc : Bool
  deriving DecidableEq, Repr

/-- A row that has not been written. -/
def SubchRow.empty : SubchRow := ⟨false, 0, false⟩

/-- The MSC result record `MSCPRESENT`, `MSCSUBCH`, `MSCBASE`, `MSCLEN`, `MSCHASCRC`, `MSCVALID` (10_state.md
R38). -/
structure MscRecord where
  present : Bool
  subch : BitVec 8
  base : Nat
  len : Nat
  hasCrc : Bool
  valid : Bool
  deriving DecidableEq, Repr

/-- The empty record. -/
def MscRecord.empty : MscRecord := ⟨false, 0, 0, 0, false, false⟩

/-- The status codes a response may carry (60_exceptions.md R221); the unused codes have no constructor
(93_implementation_defined.md U5). -/
inductive Status where
  | ok
  | overflow
  | underflow
  | range
  | lengthMismatch
  | illegalCmd
  | illegalOperand
  | illegalState
  deriving DecidableEq, Repr

/-- The 4-bit number of a status code (60_exceptions.md R221). -/
def Status.code : Status → BitVec 4
  | .ok => 0
  | .overflow => 1
  | .underflow => 2
  | .range => 3
  | .lengthMismatch => 4
  | .illegalCmd => 8
  | .illegalOperand => 9
  | .illegalState => 10

/-- The pair `(status, res)` the block returns (00_scope.md R5). -/
structure Response where
  status : Status
  res : Operand
  deriving DecidableEq, Repr

/-- What the host sends the block, in one ordered list (70_reset_and_hazards.md R251). -/
inductive Event where
  /-- A command transaction (00_scope.md R5). -/
  | command (t : Transaction)
  /-- The reset event (70_reset_and_hazards.md R250). -/
  | reset
  deriving DecidableEq, Repr

/-- The state of the block, with the model's own fields `cfg`, `inbox` and `rsp`. -/
structure State where
  /-- The instance's parameters (00_scope.md R10; log entry 4). -/
  cfg : Params
  /-- `BIT[0 .. CAP_BITS-1]` (10_state.md R22). -/
  bit : Memory
  /-- `BBWR`, the write cursor (10_state.md R23). -/
  bbwr : Nat
  /-- `BBRD`, the read cursor (10_state.md R24). -/
  bbrd : Nat
  /-- The view registers (10_state.md R26). -/
  view : View
  /-- `FIBCOUNT`, 0 when not configured (10_state.md R29). -/
  fibcount : Nat
  /-- `FSTATE` (10_state.md R30). -/
  fstate : FState
  /-- `FIBN`, the FIBs appended so far (10_state.md R31). -/
  fibn : Nat
  /-- `HOLD[0 .. 31]` (10_state.md R32). -/
  hold : Fib
  /-- `FIBMEM[0 .. 3][0 .. 31]` (10_state.md R33). -/
  fibmem : Vector Fib 4
  /-- `FIBVALID[0 .. 3]` (10_state.md R34). -/
  fibvalid : Vector Bool 4
  /-- `FRAMEVALID` (10_state.md R35). -/
  framevalid : Bool
  /-- `SUBCH[0 .. NSUBCH-1]` as (id, row), ids rising, no empty row listed (10_state.md R37; log entry 10). -/
  subch : List (Nat × SubchRow)
  /-- The MSC result record (10_state.md R38). -/
  msc : MscRecord
  /-- The events the host has sent and the block has not taken, oldest first (00_scope.md R6; log entry 1). -/
  inbox : List Event
  /-- The response of the step just taken, none if it was no transaction (00_scope.md R5; log entry 2). -/
  rsp : Option Response
  deriving DecidableEq, Repr

/-- Why the machine stops. A precondition that the spec says the calling rule always establishes does not hold; no
state that meets the spec's invariants (10_state.md R25, R27, R36) reaches a fault (log entry 7). -/
inductive Fault where
  /-- Raised by `MemRead` and `MemBytes` when the range at `addr` of `n` bits is not within the written bounds
  (00_scope.md R15: "Precondition, always established by the calling rule"). Safe: the model stops. -/
  | unwrittenBits (addr n : Nat)
  /-- Raised by FIBCOMMIT when `FIBN` names none of the four records (42_frame_fic.md R167 (c)). Safe: the model
  stops. -/
  | noFibRecord (idx : Nat)
  deriving DecidableEq, Repr

/-- Why a command has no meaning. -/
inductive Refusal where
  /-- Raised by `exec` for a command whose meaning is not written; no arm of this model raises it. Safe: the model
  stops. -/
  | notModelled (mnemonic : String)
  deriving DecidableEq, Repr

/-- What a step answers. -/
abbrev Result := Host.Outcome State Fault Refusal

/-- The state after the reset event of an instance with parameters `p` (10_state.md R44). The contents of `BIT`,
`HOLD` and `FIBMEM`, which the spec leaves unspecified, are zero: DESIGN CHOICE, log entries 5 and 6. -/
def State.resetWith (p : Params) : State where
  cfg := p
  bit := []
  bbwr := 0
  bbrd := 0
  view := View.none
  fibcount := 0
  fstate := .awaitingFib
  fibn := 0
  hold := Vector.replicate 32 0
  fibmem := Vector.replicate 4 (Vector.replicate 32 0)
  fibvalid := Vector.replicate 4 false
  framevalid := true
  subch := []
  msc := MscRecord.empty
  inbox := []
  rsp := none

/-- The machine right after reset, for the default instance (log entry 4). -/
def State.reset : State := State.resetWith Params.default

end Sys2Proof.Machine
end

