-- ==== Sys2Proof/Machine/Ops.lean ====
section
/-! DEFINITION. The shared operations: sparse stores, the bit store (20_memory.md), the subchannel table, responses
and errors (60_exceptions.md R226, R231), the read windows of the two targets (40_bitbuffer.md R121) and the
command port (00_scope.md R5, R6). -/

namespace Sys2Proof.Machine

/-! ### Sparse stores: key and value pairs in one canonical form -/

/-- What key `a` holds; a key that is not listed holds `d`. -/
def Store.read {α : Type} (d : α) : List (Nat × α) → Nat → α
  | [], _ => d
  | (k, v) :: rest, a => if a = k then v else Store.read d rest a

/-- Makes key `a` hold `v`, in canonical form: writing `d` removes the entry. -/
def Store.write {α : Type} [DecidableEq α] (d : α) : List (Nat × α) → Nat → α → List (Nat × α)
  | [], a, v => if v = d then [] else [(a, v)]
  | (k, w) :: rest, a, v =>
    if a < k then (if v = d then (k, w) :: rest else (a, v) :: (k, w) :: rest)
    else if a = k then (if v = d then rest else (a, v) :: rest)
    else (k, w) :: Store.write d rest a v

/-- The canonical form: keys strictly rising, no entry equal to what an unlisted key holds. -/
abbrev Store.wf {α : Type} (d : α) (l : List (Nat × α)) : Prop :=
  (l.Pairwise fun a b => a.1 < b.1) ∧ ∀ c ∈ l, c.2 ≠ d

/-! ### The bit store -/

/-- What a storage byte that nothing has written reads as. DESIGN CHOICE (log entry 5): the spec leaves it
unspecified, and no command reads it (20_memory.md R64). -/
def Memory.unlisted : Byte := 0#8

/-- Storage byte `a` (10_state.md R22). -/
def Memory.read (m : Memory) (a : Nat) : Byte := Store.read Memory.unlisted m a

/-- Replaces storage byte `a`. -/
def Memory.write (m : Memory) (a : Nat) (b : Byte) : Memory := Store.write Memory.unlisted m a b

/-- The canonical form of the bit store. -/
abbrev Memory.wf (m : Memory) : Prop := Store.wf Memory.unlisted m

/-- Replaces bit `7 - k` of a storage byte, `k` counted from its most significant bit (00_scope.md R14). -/
def setByteBit (x : Byte) (k : Nat) (b : Bool) : Byte :=
  if b then x ||| (0x80#8 >>> k) else x &&& ~~~(0x80#8 >>> k)

/-- `BIT[i]`: bit `7 - (i mod 8)` of storage byte `i div 8` (00_scope.md R14). -/
def Memory.getBit (m : Memory) (i : Nat) : Bool := (Memory.read m (i / 8)).getLsbD (7 - i % 8)

/-- `BIT[i] <- b`; the byte's other bits keep their values (20_memory.md R63). -/
def Memory.setBit (m : Memory) (i : Nat) (b : Bool) : Memory :=
  Memory.write m (i / 8) (setByteBit (Memory.read m (i / 8)) (i % 8) b)

/-- `MemRead(addr, n)`: the first bit is the most significant (20_memory.md R62). -/
def Memory.readBits (m : Memory) (addr : Nat) : Nat → Nat
  | 0 => 0
  | n + 1 => 2 * Memory.readBits m addr n + (Memory.getBit m (addr + n)).toNat

/-- `MemWrite(addr, n, v)`: `BIT[addr+k] <- v[n-1-k]` for `k = 0 .. n-1` (20_memory.md R63). -/
def Memory.writeBits (m : Memory) (addr : Nat) : Nat → Nat → Memory
  | 0, _ => m
  | n + 1, v => Memory.setBit (Memory.writeBits m addr n (v / 2)) (addr + n) (v % 2 == 1)

/-- `MemRead(addr, 8)`, a byte cut from any bit address (20_memory.md R66). -/
def Memory.byteAt (m : Memory) (addr : Nat) : Byte := BitVec.ofNat 8 (Memory.readBits m addr 8)

/-- `MemBytes(addr, count)` (00_scope.md R15). -/
def Memory.bytesAt (m : Memory) (addr : Nat) : Nat → List Byte
  | 0 => []
  | count + 1 => Memory.byteAt m addr :: Memory.bytesAt m (addr + 8) count

/-- The 32 bytes of a FIB at a bit address (42_frame_fic.md R166). -/
def Memory.fibAt (m : Memory) (addr : Nat) : Fib := Vector.ofFn fun j => Memory.byteAt m (addr + 8 * j.val)

/-! ### The subchannel table -/

/-- `SUBCH[id]` (10_state.md R37). -/
def subchRead (t : List (Nat × SubchRow)) (id : Nat) : SubchRow := Store.read SubchRow.empty t id

/-- `SUBCH[id] <- row`. -/
def subchWrite (t : List (Nat × SubchRow)) (id : Nat) (row : SubchRow) : List (Nat × SubchRow) :=
  Store.write SubchRow.empty t id row

/-- The canonical form of the subchannel table. -/
abbrev subchWf (t : List (Nat × SubchRow)) : Prop := Store.wf SubchRow.empty t

/-! ### Responses and errors -/

/-- `return v`: the response is `OK` with result `v` (00_scope.md R8, R15). -/
def State.respond (s : State) (v : Operand) : State := { s with rsp := some ⟨.ok, v⟩ }

/-- `raise st`, the block's whole trap entry (60_exceptions.md R231): the response carries the status and `res = 0`,
and no state changes (R226). There is no return from it and nothing to restore (R232). -/
def State.raise (s : State) (st : Status) : State := { s with rsp := some ⟨st, 0⟩ }

/-- The result 1 or 0 of a comparison. -/
def boolResult (b : Bool) : Operand := if b then 1 else 0

/-- Guards a read of `n` bits at `addr` with the precondition of `MemRead` (00_scope.md R15: `addr + n <= BBWR`);
where it does not hold the read faults (log entry 7). -/
def State.reading (s : State) (addr n : Nat) (k : Result) : Result :=
  if addr + n ≤ s.bbwr then k else .fault (.unwrittenBits addr n)

/-! ### The two targets of a read -/

/-- A target seen as a BitBuffer (40_bitbuffer.md R121): where it starts in the store, its read cursor, and the end
of its readable bits. -/
structure Window where
  base : Nat
  rd : Nat
  limit : Nat
  deriving DecidableEq, Repr

/-- The BitBuffer itself, or the view if there is one (40_bitbuffer.md R113, R121). -/
def State.window (s : State) : Target → Option Window
  | .buffer => some ⟨0, s.bbrd, s.bbwr⟩
  | .view => if s.view.valid then some ⟨s.view.base, s.view.rd, s.view.len⟩ else none

/-- Moves the target's read cursor forward by `n`; the other target's cursor stays (40_bitbuffer.md R121). -/
def State.advance (s : State) (n : Nat) : Target → State
  | .buffer => { s with bbrd := s.bbrd + n }
  | .view => { s with view := { s.view with rd := s.view.rd + n } }

/-! ### The command port -/

/-- The reset event: the state of 10_state.md R44, no response, the parameters kept (70_reset_and_hazards.md R250,
R251); the host's later events still wait. -/
def State.resetEvent (s : State) : State := { State.resetWith s.cfg with inbox := s.inbox }

/-- An illegal word: `ILLEGAL_CMD` and no state change (60_exceptions.md R224). -/
def illegalCommand (s : State) : Result := .next (s.raise .illegalCmd)

/-- No event waits: nothing happens (00_scope.md R6). -/
def idleStep (s : State) : Result := .next { s with rsp := none }

/-- Puts a transaction before every event that waits. -/
def State.sendFirst (s : State) (t : Transaction) : State := { s with inbox := .command t :: s.inbox }

end Sys2Proof.Machine
end

