-- ==== Sys2Proof/Machine/Operands.lean ====
section
/-! DEFINITION. The operand forms of the commands: the legality checks of 30_encoding.md R82 and the ranges of
format R and V. Operands are natural numbers and sums do not wrap (00_scope.md R7). -/

namespace Sys2Proof.Machine

/-- `WIDTH` in `1 .. 64` (30_encoding.md R82). -/
def legalWidth (width : BitVec 8) : Bool := 1 ≤ width.toNat && width.toNat ≤ 64

/-- A status register number, `0 .. 11` (30_encoding.md R82). -/
def legalSr (sr : BitVec 8) : Bool := sr.toNat ≤ 11

/-- A FIB count, 3 or 4 (30_encoding.md R82). -/
def legalFibCount (n : BitVec 8) : Bool := n.toNat == 3 || n.toNat == 4

/-- A subchannel id, `0 .. NSUBCH-1` (30_encoding.md R82). -/
def legalId (p : Params) (id : BitVec 8) : Bool := id.toNat < p.nsubch

/-- A whole number of bytes (20_memory.md R66). -/
def wholeBytes (bits : Operand) : Bool := bits.toNat % 8 == 0

/-- The range `start .. start+length-1` is within the written bounds: `start + length <= BBWR`, with no wrap
(00_scope.md R7). -/
def State.rangeWritten (s : State) (start length : Operand) : Bool := start.toNat + length.toNat ≤ s.bbwr

end Sys2Proof.Machine
end

