-- ==== Sys2Proof/Machine/BitBuffer.lean ====
section
/-! DEFINITION. The BitBuffer commands (40_bitbuffer.md). -/

namespace Sys2Proof.Machine

/-- The checks and the read that BBREAD and BBPEEK share (40_bitbuffer.md R113, R114); `after` is what happens once
the field is read. -/
def fieldRead (target : Target) (width : BitVec 8) (s : State) (after : Operand → Result) : Result :=
  if legalWidth width then
    match s.window target with
    | none => .next (s.raise .illegalState)
    | some win =>
      if win.rd + width.toNat ≤ win.limit then
        s.reading (win.base + win.rd) width.toNat
          (after (BitVec.ofNat 64 (Memory.readBits s.bit (win.base + win.rd) width.toNat)))
      else .next (s.raise .underflow)
  else .next (s.raise .illegalOperand)

/-- `BBWRITE w, value` (40_bitbuffer.md R111). -/
def execBbwrite (width : BitVec 8) (value : Operand) (s : State) : Result :=
  if legalWidth width then
    if s.bbwr + width.toNat ≤ s.cfg.capBits then
      .next ({ s with
        bit := Memory.writeBits s.bit s.bbwr width.toNat value.toNat
        bbwr := s.bbwr + width.toNat }.respond 0)
    else .next (s.raise .overflow)
  else .next (s.raise .illegalOperand)

/-- `BBREAD w` and `BBREAD.V w` (40_bitbuffer.md R113). -/
def execBbread (target : Target) (width : BitVec 8) (s : State) : Result :=
  fieldRead target width s fun v => .next ((s.advance width.toNat target).respond v)

/-- `BBPEEK w` and `BBPEEK.V w` (40_bitbuffer.md R114). -/
def execBbpeek (target : Target) (width : BitVec 8) (s : State) : Result :=
  fieldRead target width s fun v => .next (s.respond v)

/-- `BBREM` and `BBREM.V` (40_bitbuffer.md R115). -/
def execBbrem (target : Target) (s : State) : Result :=
  match s.window target with
  | none => .next (s.raise .illegalState)
  | some win => .next (s.respond (BitVec.ofNat 64 (win.limit - win.rd)))

/-- `BBRESET` (40_bitbuffer.md R117): the storage is retained. -/
def execBbreset (s : State) : Result :=
  .next ({ s with bbwr := 0, bbrd := 0, view := View.none, msc := MscRecord.empty }.respond 0)

/-- `BBSLICE start, length` (40_bitbuffer.md R119). -/
def execBbslice (start length : Operand) (s : State) : Result :=
  if s.rangeWritten start length then
    .next ({ s with view := ⟨true, start.toNat, length.toNat, 0⟩ }.respond 0)
  else .next (s.raise .range)

end Sys2Proof.Machine
end

