-- ==== Sys2Proof/Machine/Crc.lean ====
section
/-! DEFINITION. The function `crc16` of 41_crc.md R140 to R143: table-driven, most significant bit first, polynomial
0x1021, initial value 0xFFFF. The table is a constant (R148; log entry 11). -/

namespace Sys2Proof.Machine

/-- One shift of the table's construction (41_crc.md R141). -/
def crcShift (r : Crc) : Crc := if r.getLsbD 15 then (r <<< 1) ^^^ 0x1021#16 else r <<< 1

/-- `f` applied `n` times. -/
def repeatCrc (f : Crc → Crc) : Nat → Crc → Crc
  | 0, c => c
  | n + 1, c => repeatCrc f n (f c)

/-- `CRCTAB[i]`: eight shifts of the byte `i` in the high byte (41_crc.md R141). -/
def crcTab (i : Byte) : Crc := repeatCrc crcShift 8 (i ++ 0#8)

/-- `crc_step(c, b) = ((c << 8) & 0xFFFF) xor CRCTAB[(c >> 8) xor b]` (41_crc.md R142). -/
def crcStep (c : Crc) (b : Byte) : Crc := (c <<< 8) ^^^ crcTab (c.extractLsb' 8 8 ^^^ b)

/-- The register after the bytes, in list order, from `c` (41_crc.md R143). -/
def crcFold (c : Crc) (bytes : List Byte) : Crc := bytes.foldl crcStep c

/-- `crc16(bytes)` for the final XOR `xorout` (41_crc.md R143). -/
def crc16 (xorout : Crc) (bytes : List Byte) : Crc := crcFold 0xFFFF#16 bytes ^^^ xorout

end Sys2Proof.Machine
end

