-- ==== Sys2Proof/Machine/CrcEngine.lean ====
section
/-! DEFINITION. The CRC Engine's commands (41_crc.md R145, R146). -/

namespace Sys2Proof.Machine

/-- The checks and the CRC that CRCCOMP and CRCVERIFY share; `result` makes the 64-bit result of the CRC. -/
def crcCommand (start length : Operand) (s : State) (result : Crc → Operand) : Result :=
  if wholeBytes length then
    if s.rangeWritten start length then
      s.reading start.toNat length.toNat
        (.next (s.respond (result
          (crc16 s.cfg.crcXorout (Memory.bytesAt s.bit start.toNat (length.toNat / 8))))))
    else .next (s.raise .range)
  else .next (s.raise .illegalOperand)

/-- `CRCCOMP start, length` (41_crc.md R145). -/
def execCrccomp (start length : Operand) (s : State) : Result :=
  crcCommand start length s fun c => c.setWidth 64

/-- `CRCVERIFY exp, start, length` (41_crc.md R146). -/
def execCrcverify (exp : Crc) (start length : Operand) (s : State) : Result :=
  crcCommand start length s fun c => boolResult (c == exp)

end Sys2Proof.Machine
end

