-- ==== Sys2Proof/Machine/Flags.lean ====
section
/-! DEFINITION. The validity flags (10_state.md R42) and the packing of flags and fields in the status registers
(10_state.md R40, R41). -/

namespace Sys2Proof.Machine

/-- The CRC field of a FIB, high byte first (42_frame_fic.md R160). -/
def Fib.crcField (f : Fib) : Crc := f[30] ++ f[31]

/-- The 30 payload bytes of a FIB, in order (42_frame_fic.md R160). -/
def Fib.payload (f : Fib) : List Byte := f.toList.take 30

/-- `fib_valid(F)` (42_frame_fic.md R161). -/
def fibValid (xorout : Crc) (f : Fib) : Bool := crc16 xorout (Fib.payload f) == Fib.crcField f

/-- The CRC comparison of an MSC frame whose payload of `plen` bits and CRC field start at `base` (43_frame_msc.md
R182, R183). -/
def mscCrcMatches (xorout : Crc) (m : Memory) (base plen : Nat) : Bool :=
  crc16 xorout (Memory.bytesAt m base (plen / 8)) == BitVec.ofNat 16 (Memory.readBits m (base + plen) 16)

/-- The number of `FSTATE` (10_state.md R30). -/
def FState.number : FState → Nat
  | .awaitingFib => 0
  | .fibComplete => 1
  | .frameComplete => 2

/-- `SR[8]`, `FICSTAT` (10_state.md R41). -/
def State.ficStat (s : State) : Nat :=
  s.fstate.number + 4 * s.fibn + 32 * s.fibvalid[0].toNat + 64 * s.fibvalid[1].toNat + 128 * s.fibvalid[2].toNat
    + 256 * s.fibvalid[3].toNat + 512 * s.framevalid.toNat

/-- `SR[9]`, `MSCSTAT` (10_state.md R41). -/
def State.mscStat (s : State) : Nat :=
  s.msc.present.toNat + 2 * s.msc.hasCrc.toNat + 4 * s.msc.valid.toNat + 256 * s.msc.subch.toNat

/-- `SR[n]` as a natural number; a number above 11 is no status register (10_state.md R40, R41). -/
def State.statusValue (s : State) (n : Nat) : Nat :=
  match n with
  | 0 => s.cfg.capBits
  | 1 => s.bbwr
  | 2 => s.bbrd
  | 3 => s.view.valid.toNat
  | 4 => s.view.base
  | 5 => s.view.len
  | 6 => s.view.rd
  | 7 => s.fibcount
  | 8 => s.ficStat
  | 9 => s.mscStat
  | 10 => s.msc.base
  | 11 => s.msc.len
  | _ => 0

/-- `SR[n]`, 64 bits (10_state.md R40; log entry 8). -/
def State.statusRegister (s : State) (n : Nat) : Operand := BitVec.ofNat 64 (s.statusValue n)

end Sys2Proof.Machine
end

