-- ==== Sys2Proof/Machine/FicFrame.lean ====
section
/-! DEFINITION. FIB and FIC frame assembly (42_frame_fic.md). -/

namespace Sys2Proof.Machine

/-- `FICCFG n` (42_frame_fic.md R164). -/
def execFiccfg (n : BitVec 8) (s : State) : Result :=
  if legalFibCount n then
    if s.fstate = .awaitingFib ∧ s.fibn = 0 then .next ({ s with fibcount := n.toNat }.respond 0)
    else .next (s.raise .illegalState)
  else .next (s.raise .illegalOperand)

/-- `FICNEW` (42_frame_fic.md R165). -/
def execFicnew (s : State) : Result :=
  .next ({ s with
    fstate := .awaitingFib
    fibn := 0
    fibvalid := Vector.replicate 4 false
    framevalid := true }.respond 0)

/-- `FIBLATCH` (42_frame_fic.md R166). -/
def execFiblatch (s : State) : Result :=
  if s.fibcount = 0 then .next (s.raise .illegalState)
  else if s.fstate ≠ .awaitingFib then .next (s.raise .illegalState)
  else if s.bbwr - s.bbrd < 256 then .next (s.raise .underflow)
  else
    s.reading s.bbrd 256
      (.next ({ s with
        hold := Memory.fibAt s.bit s.bbrd
        bbrd := s.bbrd + 256
        fstate := .fibComplete }.respond 0))

/-- The frame with the latched FIB appended: its record, its validity bit, the running frame flag, the count and the
state (42_frame_fic.md R167). -/
def State.appendFib (s : State) : State :=
  { s with
    fibmem := s.fibmem.setIfInBounds s.fibn s.hold
    fibvalid := s.fibvalid.setIfInBounds s.fibn (fibValid s.cfg.crcXorout s.hold)
    framevalid := s.framevalid && fibValid s.cfg.crcXorout s.hold
    fibn := s.fibn + 1
    fstate := if s.fibn + 1 < s.fibcount then .awaitingFib else .frameComplete }

/-- `FIBCOMMIT` (42_frame_fic.md R167). -/
def execFibcommit (s : State) : Result :=
  if s.fstate ≠ .fibComplete then .next (s.raise .illegalState)
  else if s.fibn < 4 then .next (s.appendFib.respond (boolResult (fibValid s.cfg.crcXorout s.hold)))
  else .fault (.noFibRecord s.fibn)

/-- `FIBRD idx, off` (42_frame_fic.md R168). -/
def execFibrd (idx : BitVec 2) (off : BitVec 5) (s : State) : Result :=
  if s.fibn ≤ idx.toNat then .next (s.raise .illegalState)
  else .next (s.respond ((s.fibmem[idx.toNat][off.toNat]).setWidth 64))

end Sys2Proof.Machine
end

