-- ==== Sys2Proof/Machine/MscFrame.lean ====
section
/-! DEFINITION. MSC frame parsing (43_frame_msc.md). -/

namespace Sys2Proof.Machine

/-- `MSCCFG id, hc, plen` (43_frame_msc.md R181). -/
def execMsccfg (hc : Bool) (id : BitVec 8) (plen : Operand) (s : State) : Result :=
  if legalId s.cfg id then
    if hc && !wholeBytes plen then .next (s.raise .illegalOperand)
    else .next ({ s with subch := subchWrite s.subch id.toNat ⟨true, plen, hc⟩ }.respond 0)
  else .next (s.raise .illegalOperand)

/-- The validity of the frame in the view for a row, and what follows (43_frame_msc.md R183): without a CRC it is
valid, with a CRC field not wholly present it is not, else the CRC decides. -/
def mscVerdict (s : State) (row : SubchRow) (after : Bool → Result) : Result :=
  if row.hc then
    if s.view.len < row.plen.toNat + 16 then after false
    else
      s.reading s.view.base (row.plen.toNat + 16)
        (after (mscCrcMatches s.cfg.crcXorout s.bit s.view.base row.plen.toNat))
  else after true

/-- MSCPARSE of a row, once the id is in the table (43_frame_msc.md R183). -/
def mscParseRow (id : BitVec 8) (row : SubchRow) (s : State) : Result :=
  if !row.cfgd then .next (s.raise .illegalState)
  else if !s.view.valid then .next (s.raise .illegalState)
  else if s.view.len < row.plen.toNat then .next (s.raise .lengthMismatch)
  else
    mscVerdict s row fun v =>
      .next ({ s with msc := ⟨true, id, s.view.base, row.plen.toNat, row.hc, v⟩ }.respond (boolResult v))

/-- `MSCPARSE id` (43_frame_msc.md R183). -/
def execMscparse (id : BitVec 8) (s : State) : Result :=
  if legalId s.cfg id then mscParseRow id (subchRead s.subch id.toNat) s else .next (s.raise .illegalOperand)

end Sys2Proof.Machine
end

