-- ==== Sys2Proof/Machine/SystemCommands.lean ====
section
/-! DEFINITION. The status command (44_system.md). -/

namespace Sys2Proof.Machine

/-- `RDSR n` (44_system.md R190). -/
def execRdsr (sr : BitVec 8) (s : State) : Result :=
  if legalSr sr then .next (s.respond (s.statusRegister sr.toNat)) else .next (s.raise .illegalOperand)

end Sys2Proof.Machine
end

