-- ==== Sys2Proof/Machine/Dispatch.lean ====
section
/-! DEFINITION. The meaning of each command: one arm per constructor. -/

namespace Sys2Proof.Machine

def exec (i : Instr) (s : State) : Host.Outcome State Fault Refusal :=
  match i with
  | .rdsr sr => Sys2Proof.Machine.execRdsr sr s
  | .bbwrite width value => Sys2Proof.Machine.execBbwrite width value s
  | .bbread target width => Sys2Proof.Machine.execBbread target width s
  | .bbpeek target width => Sys2Proof.Machine.execBbpeek target width s
  | .bbrem target => Sys2Proof.Machine.execBbrem target s
  | .bbreset => Sys2Proof.Machine.execBbreset s
  | .bbslice start length => Sys2Proof.Machine.execBbslice start length s
  | .crccomp start length => Sys2Proof.Machine.execCrccomp start length s
  | .crcverify exp start length => Sys2Proof.Machine.execCrcverify exp start length s
  | .ficcfg n => Sys2Proof.Machine.execFiccfg n s
  | .ficnew => Sys2Proof.Machine.execFicnew s
  | .fiblatch => Sys2Proof.Machine.execFiblatch s
  | .fibcommit => Sys2Proof.Machine.execFibcommit s
  | .fibrd idx off => Sys2Proof.Machine.execFibrd idx off s
  | .msccfg hc id plen => Sys2Proof.Machine.execMsccfg hc id plen s
  | .mscparse id => Sys2Proof.Machine.execMscparse id s

end Sys2Proof.Machine
end

