-- ==== Sys2Proof/Machine/Step.lean ====
section
/-! DEFINITION. One step: the block takes the oldest event that waits and carries it out whole (00_scope.md R5, R6;
log entry 1). -/

namespace Sys2Proof.Machine

/-- One step of the machine. A command transaction is decoded and run, or answered `ILLEGAL_CMD`; a reset event
gives the reset state; with no event nothing happens. -/
def step (s : State) : Host.Outcome State Fault Refusal :=
  match s.inbox with
  | [] => idleStep s
  | .reset :: rest => .next (State.resetEvent { s with inbox := rest })
  | .command t :: rest =>
    match decode t with
    | .ok i => exec i { s with inbox := rest }
    | .error _ => illegalCommand { s with inbox := rest }

/-- `s` with the transaction whose bits are `w` waiting before every other event, so that the next step runs it
(log entry 1). -/
def State.withFetchWord (s : State) (nbits w : Nat) : State := s.sendFirst (transactionOfBits nbits w)

end Sys2Proof.Machine
end

