-- ==== Sys2Proof/WellFormed.lean ====
section
/-! DEFINITION. Well-formed commands: every field and operand in its legal set (30_encoding.md R82). An ill-formed
command still decodes (R85 (e)); the block answers it with `ILLEGAL_OPERAND` (60_exceptions.md R227 (2)). The
meanings make their own checks (Machine/Operands.lean); that the two agree is a statement. -/

namespace Sys2Proof

/-- The command's fields and operands are all in the legal sets of 30_encoding.md R82, for an instance with
parameters `p`. -/
def Instr.wellFormed (p : Params) : Instr → Bool
  | .rdsr sr => sr ≤ 11#8
  | .bbwrite width _ => 1#8 ≤ width && width ≤ 64#8
  | .bbread _ width => 1#8 ≤ width && width ≤ 64#8
  | .bbpeek _ width => 1#8 ≤ width && width ≤ 64#8
  | .bbrem _ => true
  | .bbreset => true
  | .bbslice _ _ => true
  | .crccomp _ length => length % 8#64 == 0#64
  | .crcverify _ _ length => length % 8#64 == 0#64
  | .ficcfg n => n == 3#8 || n == 4#8
  | .ficnew => true
  | .fiblatch => true
  | .fibcommit => true
  | .fibrd _ _ => true
  | .msccfg hc id plen => decide (id.toNat < p.nsubch) && (!hc || plen % 8#64 == 0#64)
  | .mscparse id => decide (id.toNat < p.nsubch)

end Sys2Proof
end

