-- ==== Sys2Proof/Safety.lean ====
section
/-! DEFINITION. What the statements speak of: the spec's invariants (10_state.md R25, R27, R36, R38), the fields of
the bit store, runs of commands, the causes of the status codes (60_exceptions.md R221), and what no command can
observe (10_state.md R43). -/

namespace Sys2Proof.Machine

/-! ### The invariants -/

/-- "read cursor ≤ write cursor ≤ capacity" (10_state.md R25). -/
def BufferInv (s : State) : Prop := s.bbrd ≤ s.bbwr ∧ s.bbwr ≤ s.cfg.capBits

/-- The bit store is canonical and has no byte outside the capacity (10_state.md R22). -/
def StoreInv (s : State) : Prop := Memory.wf s.bit ∧ ∀ c ∈ s.bit, c.1 < s.cfg.capBytes

/-- The view is within the written bounds, and zero where there is none (10_state.md R27). -/
def ViewInv (s : State) : Prop :=
  (s.view.valid = true → s.view.base + s.view.len ≤ s.bbwr ∧ s.view.rd ≤ s.view.len)
    ∧ (s.view.valid = false → s.view = View.none)

/-- The FIC invariants (a) to (f) of 10_state.md R36. -/
structure FicInv (s : State) : Prop where
  count_legal : s.fibcount = 0 ∨ s.fibcount = 3 ∨ s.fibcount = 4
  fibn_le : s.fibn ≤ s.fibcount
  complete_iff : s.fstate = .frameComplete ↔ s.fibcount ≠ 0 ∧ s.fibn = s.fibcount
  latched : s.fstate = .fibComplete → s.fibcount ≠ 0 ∧ s.fibn < s.fibcount
  frame_flag : s.framevalid = true ↔ ∀ k : Fin 4, k.val < s.fibn → s.fibvalid[k] = true
  unused_flags : ∀ k : Fin 4, s.fibn ≤ k.val → s.fibvalid[k] = false

/-- The subchannel table is canonical, and each row it lists is a configured one that MSCCFG accepts (43_frame_msc.md
R181). -/
def SubchInv (s : State) : Prop :=
  subchWf s.subch ∧
    ∀ c ∈ s.subch, c.1 < s.cfg.nsubch ∧ c.2.cfgd = true ∧ (c.2.hc = true → c.2.plen.toNat % 8 = 0)

/-- The MSC record's payload is within the written bounds, and the record is zero where there is none (10_state.md
R38). -/
def MscInv (s : State) : Prop :=
  (s.msc.present = true → s.msc.base + s.msc.len ≤ s.bbwr) ∧ (s.msc.present = false → s.msc = MscRecord.empty)

/-- The invariants of the block, for an instance with legal parameters (00_scope.md R10). -/
structure Inv (s : State) : Prop where
  params : s.cfg.legal
  buffer : BufferInv s
  store : StoreInv s
  view : ViewInv s
  fic : FicInv s
  subch : SubchInv s
  msc : MscInv s

/-! ### Fields and bytes of the bit store -/

/-- `v` is the `n`-bit field at bit address `addr`, its first bit the most significant, zero-extended (20_memory.md
R62). -/
def IsField {w : Nat} (m : Memory) (addr n : Nat) (v : BitVec w) : Prop :=
  (∀ k < n, v.getLsbD (n - 1 - k) = Memory.getBit m (addr + k)) ∧ ∀ j, n ≤ j → v.getLsbD j = false

/-- `d` is the `count` bytes cut from bit address `addr` (20_memory.md R66). -/
def IsBytes (m : Memory) (addr count : Nat) (d : List Byte) : Prop :=
  d.length = count ∧ ∀ (j : Nat) (h : j < d.length), IsField m (addr + 8 * j) 8 d[j]

/-- The bit step of the CRC (41_crc.md R142): shift left, and subtract the polynomial where the top bit and the
message bit differ. -/
def crcBitStep (c : Crc) (b : Bool) : Crc := (c <<< 1) ^^^ (if c.getLsbD 15 ^^ b then 0x1021#16 else 0#16)

/-- Bit address `a` is one the command stores to: `BBWRITE` stores to `BBWR .. BBWR+WIDTH-1` (40_bitbuffer.md R111), no
other command to any (20_memory.md section 4). -/
def bitStored (s : State) : Instr → Nat → Prop
  | .bbwrite width _, a => s.bbwr ≤ a ∧ a < s.bbwr + width.toNat
  | _, _ => False

/-! ### Runs of commands -/

/-- The responses to a list of commands and the state after them, if every one is answered. -/
def runCommands : List Instr → State → Option (List Response × State)
  | [], s => some ([], s)
  | i :: rest, s =>
    match exec i s with
    | .next t =>
      match t.rsp, runCommands rest t with
      | some r, some (rs, u) => some (r :: rs, u)
      | _, _ => none
    | _ => none

/-- `n` pairs of `FIBLATCH` and `FIBCOMMIT` (30_encoding.md R88: `FIBPUSH`). -/
def fibPushes : Nat → List Instr
  | 0 => []
  | n + 1 => .fiblatch :: .fibcommit :: fibPushes n

/-! ### The causes of the status codes (60_exceptions.md R221) -/

/-- Which commands may answer OVERFLOW, and why. -/
def overflowCause (s : State) : Instr → Prop
  | .bbwrite w _ => s.cfg.capBits < s.bbwr + w.toNat
  | _ => False

/-- The UNDERFLOW condition of a read of `n` bits at a target. -/
def readPastEnd (s : State) (n : Nat) : Target → Prop
  | .buffer => s.bbwr < s.bbrd + n
  | .view => s.view.len < s.view.rd + n

/-- Which commands may answer UNDERFLOW, and why. -/
def underflowCause (s : State) : Instr → Prop
  | .bbread target w => readPastEnd s w.toNat target
  | .bbpeek target w => readPastEnd s w.toNat target
  | .fiblatch => s.bbwr - s.bbrd < 256
  | _ => False

/-- Which commands may answer RANGE, and why. -/
def rangeCause (s : State) : Instr → Prop
  | .bbslice a l => s.bbwr < a.toNat + l.toNat
  | .crccomp a l => s.bbwr < a.toNat + l.toNat
  | .crcverify _ a l => s.bbwr < a.toNat + l.toNat
  | _ => False

/-- Which commands may answer LENGTH_MISMATCH, and why. -/
def lengthCause (s : State) : Instr → Prop
  | .mscparse id => s.view.len < (subchRead s.subch id.toNat).plen.toNat
  | _ => False

/-- Which commands may answer ILLEGAL_OPERAND, and why. -/
def operandCause (s : State) : Instr → Prop
  | .bbwrite w _ => w.toNat < 1 ∨ 64 < w.toNat
  | .bbread _ w => w.toNat < 1 ∨ 64 < w.toNat
  | .bbpeek _ w => w.toNat < 1 ∨ 64 < w.toNat
  | .rdsr n => 11 < n.toNat
  | .ficcfg n => n.toNat ≠ 3 ∧ n.toNat ≠ 4
  | .msccfg hc id plen => s.cfg.nsubch ≤ id.toNat ∨ (hc = true ∧ plen.toNat % 8 ≠ 0)
  | .mscparse id => s.cfg.nsubch ≤ id.toNat
  | .crccomp _ l => l.toNat % 8 ≠ 0
  | .crcverify _ _ l => l.toNat % 8 ≠ 0
  | _ => False

/-- The view is the target and there is none. -/
def viewMissing (s : State) : Target → Prop
  | .buffer => False
  | .view => s.view.valid = false

/-- Which commands may answer ILLEGAL_STATE, and why. -/
def stateCause (s : State) : Instr → Prop
  | .bbread target _ => viewMissing s target
  | .bbpeek target _ => viewMissing s target
  | .bbrem target => viewMissing s target
  | .ficcfg _ => s.fstate ≠ .awaitingFib ∨ s.fibn ≠ 0
  | .fiblatch => s.fibcount = 0 ∨ s.fstate ≠ .awaitingFib
  | .fibcommit => s.fstate ≠ .fibComplete
  | .fibrd idx _ => s.fibn ≤ idx.toNat
  | .mscparse id => (subchRead s.subch id.toNat).cfgd = false ∨ s.view.valid = false
  | _ => False

/-- The row of 60_exceptions.md R221 for a status code: which commands may return it, and the cause it names. No command
returns ILLEGAL_CMD: it answers a word that is none. -/
def statusCause (st : Status) (i : Instr) (s : State) : Prop :=
  match st with
  | .ok => True
  | .overflow => overflowCause s i
  | .underflow => underflowCause s i
  | .range => rangeCause s i
  | .lengthMismatch => lengthCause s i
  | .illegalCmd => False
  | .illegalOperand => operandCause s i
  | .illegalState => stateCause s i

/-! ### What no command can observe -/

/-- The two states differ at most in what 10_state.md R43 calls unobservable: the bits at and above `BBWR`, `HOLD`
outside `FIB_COMPLETE`, and the records at and above `FIBN`. -/
structure SameObservable (s t : State) : Prop where
  same_fields : t = { s with bit := t.bit, hold := t.hold, fibmem := t.fibmem }
  same_bits : ∀ a < s.bbwr, Memory.getBit t.bit a = Memory.getBit s.bit a
  same_hold : s.fstate = .fibComplete → t.hold = s.hold
  same_fibs : ∀ k : Fin 4, k.val < s.fibn → t.fibmem[k] = s.fibmem[k]

end Sys2Proof.Machine
end

