-- ==== Sys2Proof/Certificates/Slice0/Obligations.lean ====
section
/-! DEFINITION. The statements for the provers. A statement quantifies over every instance's parameters (`cfg`, log
entry 4); where it needs an invariant of the spec as a premise, that invariant is stated of reset and of every step
here too. -/

open Sys2Proof Sys2Proof.Machine

/-! ### Encoding -/

/-- Decoding the transaction the encoder writes gives the command back, with every field and operand
(30_encoding.md sections 1 to 3). -/
def Obligations.EncodedCommandDecodesToItself : Prop :=
  ∀ i : Instr, decode (encode i) = .ok i

/-- A word that decodes is the encoder's word for its command, and the operands the command uses are the
transaction's (30_encoding.md sections 1 to 3). -/
def Obligations.DecodedWordIsItsCommandsEncoding : Prop :=
  ∀ (tr : Transaction) (i : Instr), decode tr = .ok i →
    (encode i).cw = tr.cw ∧ (i.usesOpa = true → (encode i).opa = tr.opa)
      ∧ (i.usesOpb = true → (encode i).opb = tr.opb)

/-- 30_encoding.md R83: a word encodes a row's command exactly when `(cw & mask) = match`; no word matches two rows,
each mask holds all of `cw[31:24]`, the sixteen opcodes are distinct, and a word that matches no row is no command. -/
def Obligations.NoWordMatchesTwoCommands : Prop :=
  (opcodeTable.map fun r => r.mtch.extractLsb' 24 8).Nodup ∧ opcodeTable.length = 16 ∧
    (∀ r ∈ opcodeTable, r.mask.extractLsb' 24 8 = 0xFF#8 ∧ r.mtch &&& r.mask = r.mtch) ∧
    ∀ cw : Word,
      (opcodeTable.Pairwise fun r r' => ¬(cw &&& r.mask = r.mtch ∧ cw &&& r'.mask = r'.mtch)) ∧
      (∀ r ∈ opcodeTable, cw &&& r.mask = r.mtch → ∀ a b, decode ⟨cw, a, b⟩ = .ok (r.build ⟨cw, a, b⟩)) ∧
      ((∀ r ∈ opcodeTable, cw &&& r.mask ≠ r.mtch) → ∀ a b, ∃ e, decode ⟨cw, a, b⟩ = .error e)

/-- The command word alone decides the command, and an operand the command's format does not use is ignored
(00_scope.md section 4, 30_encoding.md section 1). -/
def Obligations.UnusedOperandsAreIgnored : Prop :=
  ∀ (cw : Word) (a b a' b' : Operand) (i : Instr), decode ⟨cw, a, b⟩ = .ok i →
    (∃ i', decode ⟨cw, a', b'⟩ = .ok i' ∧ (encode i').cw = (encode i).cw) ∧
    ((i.usesOpa = false ∨ a = a') → (i.usesOpb = false ∨ b = b') → decode ⟨cw, a', b'⟩ = .ok i)

/-- Words written out from the spec's encoding of them, at least one of each of the eight formats, decode to the command
they stand for (30_encoding.md sections 1 and 3). -/
def Obligations.SampleWordsDecode : Prop :=
  decode ⟨0x01000008, 0, 0⟩ = .ok (.rdsr 8) ∧
  decode ⟨0x1000000C, 0xABC, 0⟩ = .ok (.bbwrite 12 0xABC) ∧
  decode ⟨0x1180000B, 0, 0⟩ = .ok (.bbread .view 11) ∧
  decode ⟨0x13800000, 0, 0⟩ = .ok (.bbrem .view) ∧
  decode ⟨0x14000000, 0, 0⟩ = .ok .bbreset ∧
  decode ⟨0x15000000, 4, 12⟩ = .ok (.bbslice 4 12) ∧
  decode ⟨0x21002A45, 256, 240⟩ = .ok (.crcverify 0x2A45 256 240) ∧
  decode ⟨0x3400021E, 0, 0⟩ = .ok (.fibrd 2 30) ∧
  decode ⟨0x38000107, 24, 0⟩ = .ok (.msccfg true 7 24) ∧
  decode ⟨0x39000009, 0, 0⟩ = .ok (.mscparse 9)

/-- A word whose opcode is none of the sixteen is illegal, and so is BBWRITE, BBRESET or BBSLICE with `cw[23] = 1`: there
is no write, reset or slice through the view (30_encoding.md section 3, 40_bitbuffer.md section 3). -/
def Obligations.UnlistedOpcodesAndViewWritesAreIllegal : Prop :=
  ∀ (cw : Word) (a b : Operand),
    (cw.extractLsb' 24 8 ∉ [0x01#8, 0x10#8, 0x11#8, 0x12#8, 0x13#8, 0x14#8, 0x15#8, 0x20#8, 0x21#8, 0x30#8, 0x31#8,
        0x32#8, 0x33#8, 0x34#8, 0x38#8, 0x39#8] → decode ⟨cw, a, b⟩ = .error .unknownOpcode) ∧
    (cw.extractLsb' 24 8 ∈ [0x10#8, 0x14#8, 0x15#8] → cw.getLsbD 23 = true →
      decode ⟨cw, a, b⟩ = .error .reservedBitSet)

/-! ### The step -/

/-- A step whose next event is a transaction that decodes runs the decoded command on the state without that event.
The list of events is the model's form of the command port (log entry 1). -/
def Obligations.StepRunsTheDecodedCommand : Prop :=
  ∀ (s : State) (tr : Transaction) (rest : List Event) (i : Instr),
    s.inbox = .command tr :: rest → decode tr = .ok i → step s = exec i { s with inbox := rest }

/-- A transaction whose word is no command is answered ILLEGAL_CMD with result 0 and changes nothing
(60_exceptions.md section 1); the list of events is the model's (log entry 1). -/
def Obligations.IllegalWordIsAnsweredIllegalCmd : Prop :=
  ∀ (s : State) (tr : Transaction) (rest : List Event),
    s.inbox = .command tr :: rest → (∀ r ∈ opcodeTable, tr.cw &&& r.mask ≠ r.mtch) →
      step s = .next { s with inbox := rest, rsp := some ⟨.illegalCmd, 0⟩ }

/-- With no event waiting a step changes no state of the block (00_scope.md section 4); that such a step exists and
carries no response is the model's choice (log entries 1 and 2). -/
def Obligations.IdleStepChangesNothing : Prop :=
  ∀ s : State, s.inbox = [] → step s = .next { s with rsp := none }

/-- The reset event gives the reset state with the instance's parameters kept and no response
(70_reset_and_hazards.md section 1). The list of events is the model's (log entry 1), and so is that the event leaves
`BIT` (log entry 5), `HOLD` and `FIBMEM` (log entry 6) zero: the spec leaves these three unspecified. -/
def Obligations.ResetEventGivesTheResetState : Prop :=
  ∀ (s : State) (rest : List Event), s.inbox = .reset :: rest →
    step s = .next { State.resetWith s.cfg with inbox := rest }

/-- 10_state.md R44, every row to which it gives a value. It gives none to `BIT`, `HOLD` and `FIBMEM`, and nothing is
stated of them; the table `CRCTAB` is a constant and no field. -/
def Obligations.ResetValues : Prop :=
  ∀ p : Params, let s := State.resetWith p
    s.bbwr = 0 ∧ s.bbrd = 0 ∧ s.view.valid = false ∧ s.view.base = 0 ∧ s.view.len = 0 ∧ s.view.rd = 0 ∧
    s.fibcount = 0 ∧ s.fstate = .awaitingFib ∧ s.fibn = 0 ∧ (∀ k : Fin 4, s.fibvalid[k] = false) ∧
    s.framevalid = true ∧
    (∀ id, (subchRead s.subch id).cfgd = false ∧ (subchRead s.subch id).plen = 0 ∧ (subchRead s.subch id).hc = false) ∧
    s.msc.present = false ∧ s.msc.subch = 0 ∧ s.msc.base = 0 ∧ s.msc.len = 0 ∧ s.msc.hasCrc = false ∧
    s.msc.valid = false ∧ s.cfg = p

/-! ### Invariants and safety -/

/-- The reset state of every legal instance meets the invariants (10_state.md sections 2 to 5). -/
def Obligations.ResetStateMeetsTheInvariants : Prop :=
  ∀ p : Params, p.legal → Inv (State.resetWith p)

/-- Every step keeps the invariants (10_state.md sections 2 to 5): the cursors are ordered within the capacity, the
view and the MSC record lie within the written bounds, the FIC conditions (a) to (f) hold, and the stores keep their
canonical form. -/
def Obligations.EveryStepKeepsTheInvariants : Prop :=
  ∀ s t : State, Inv s → step s = .next t → Inv t

/-- From every state that meets the invariants a step answers a next state: no command reads at or above `BBWR`, and
nothing stops the block (20_memory.md section 2, 60_exceptions.md section 4, 93_implementation_defined.md section
2). -/
def Obligations.NoStepStopsUnderTheInvariants : Prop :=
  ∀ s : State, Inv s → ∃ t, step s = .next t

/-- Whatever events the host sends a legal instance after reset, no step of any run stops, and every state on the way
meets the invariants. -/
def Obligations.NoRunFromResetStops : Prop :=
  ∀ (p : Params) (events : List Event) (k : Nat), p.legal →
    ∃ t : State, Host.Core.run Sys2Proof.core k { State.resetWith p with inbox := events } = .next t ∧ Inv t

/-- What the spec leaves unspecified cannot be observed: two states that differ only in bits at and above `BBWR`, in
`HOLD` outside FIB_COMPLETE and in the records at and above `FIBN` answer a step alike, and stay so related
(10_state.md section 9, 93_implementation_defined.md section 2). The values the model chose for them at reset (log
entries 5 and 6) therefore never show. -/
def Obligations.UnspecifiedContentsAreUnobservable : Prop :=
  ∀ s s' : State, Inv s → Memory.wf s'.bit → SameObservable s s' →
    ∃ t t', step s = .next t ∧ step s' = .next t' ∧ SameObservable t t' ∧ Memory.wf t'.bit

/-- A FIBCOMMIT with no record for its FIB, and a read through the view that would leave the written bounds, stop with
a fault that names them. No state that meets the invariants is one of these; that the model stops there is its own
choice (log entry 7). -/
def Obligations.BrokenPreconditionsFault : Prop :=
  ∀ s : State,
    (s.fstate = .fibComplete → 4 ≤ s.fibn → exec .fibcommit s = .fault (.noFibRecord s.fibn)) ∧
    (∀ w : BitVec 8, 1 ≤ w.toNat → w.toNat ≤ 64 → s.view.valid = true → s.view.rd + w.toNat ≤ s.view.len →
      s.bbwr < s.view.base + s.view.rd + w.toNat →
      exec (.bbread .view w) s = .fault (.unwrittenBits (s.view.base + s.view.rd) w.toNat) ∧
      exec (.bbpeek .view w) s = .fault (.unwrittenBits (s.view.base + s.view.rd) w.toNat)) ∧
    (∀ id : BitVec 8, id.toNat < s.cfg.nsubch → s.view.valid = true →
      (subchRead s.subch id.toNat).cfgd = true → (subchRead s.subch id.toNat).hc = true →
      (subchRead s.subch id.toNat).plen.toNat + 16 ≤ s.view.len →
      s.bbwr < s.view.base + ((subchRead s.subch id.toNat).plen.toNat + 16) →
      exec (.mscparse id) s
        = .fault (.unwrittenBits s.view.base ((subchRead s.subch id.toNat).plen.toNat + 16)))

/-! ### Responses and errors -/

/-- 60_exceptions.md R220 and R226: a transaction that is answered is answered with exactly one status; where that is
not OK the state is what it was, with the transaction taken, and the result is 0. -/
def Obligations.FailedCommandLeavesNoTrace : Prop :=
  ∀ (s t : State) (tr : Transaction) (rest : List Event), s.inbox = .command tr :: rest → step s = .next t →
    ∃ r, t.rsp = some r ∧ (r.status ≠ .ok → r.res = 0 ∧ t = { s with inbox := rest, rsp := some r })

/-- A field or operand outside its legal set is answered ILLEGAL_OPERAND in every state, before any state precondition
and before the command's own error; no other command is answered so (30_encoding.md section 2, 60_exceptions.md
section 2). -/
def Obligations.IllegalOperandComesBeforeStateErrors : Prop :=
  ∀ (i : Instr) (s : State),
    (i.wellFormed s.cfg = false → exec i s = .next { s with rsp := some ⟨.illegalOperand, 0⟩ }) ∧
    (i.wellFormed s.cfg = true → ∀ (t : State) (r : Response), exec i s = .next t → t.rsp = some r →
      r.status ≠ .illegalOperand)

/-- 60_exceptions.md R221: a status code comes only from the commands its row names and for the cause its row names,
and has the row's number; ILLEGAL_CMD answers exactly the words that match no row of the opcode table. -/
def Obligations.StatusCodesHaveTheirCauses : Prop :=
  (∀ (s t : State) (tr : Transaction) (rest : List Event) (r : Response), s.inbox = .command tr :: rest →
    step s = .next t → t.rsp = some r →
      (r.status = .illegalCmd ↔ ∀ row ∈ opcodeTable, tr.cw &&& row.mask ≠ row.mtch)) ∧
  (∀ (i : Instr) (s t : State) (r : Response), exec i s = .next t → t.rsp = some r → statusCause r.status i s) ∧
  Status.ok.code = 0 ∧ Status.overflow.code = 1 ∧ Status.underflow.code = 2 ∧ Status.range.code = 3 ∧
  Status.lengthMismatch.code = 4 ∧ Status.illegalCmd.code = 8 ∧ Status.illegalOperand.code = 9 ∧
  Status.illegalState.code = 10

/-- No status depends on the contents of the bit store, of `HOLD` or of `FIBMEM`: a CRC mismatch is never an error
(60_exceptions.md section 1, 42_frame_fic.md section 4). -/
def Obligations.StatusIsIndependentOfContents : Prop :=
  ∀ (i : Instr) (s t : State) (m : Memory) (h : Fib) (f : Vector Fib 4), exec i s = .next t →
    ∃ t', exec i { s with bit := m, hold := h, fibmem := f } = .next t' ∧
      t'.rsp.map Response.status = t.rsp.map Response.status

/-! ### Frames -/

/-- RDSR, BBPEEK, BBREM, CRCCOMP, CRCVERIFY and FIBRD change no state, and sent again give the same response
(20_memory.md section 4). -/
def Obligations.ReadOnlyCommandsChangeNothing : Prop :=
  ∀ (i : Instr) (s t : State),
    (match i with
      | .rdsr _ | .bbpeek _ _ | .bbrem _ | .crccomp _ _ | .crcverify _ _ _ | .fibrd _ _ => True
      | _ => False) →
    exec i s = .next t → t = { s with rsp := t.rsp } ∧ exec i t = .next t

/-- The bit store changes only where BBWRITE writes: at the bit addresses `BBWR .. BBWR+WIDTH-1`. Every other bit, and
every storage byte with no bit there, reads as before, after every command (40_bitbuffer.md section 2, 20_memory.md
section 2). -/
def Obligations.StoreChangesOnlyWhereBbwriteWrites : Prop :=
  ∀ (i : Instr) (s t : State), Memory.wf s.bit → exec i s = .next t →
    (∀ a, ¬bitStored s i a → Memory.getBit t.bit a = Memory.getBit s.bit a) ∧
    (∀ j, (∀ k < 8, ¬bitStored s i (8 * j + k)) → Memory.read t.bit j = Memory.read s.bit j)

/-- Only the commands that own a cursor, the view, the subchannel table or the MSC record change it (10_state.md
sections 2 and 5); no command changes the parameters or the events that wait. -/
def Obligations.CursorsViewAndTablesHaveTheirWriters : Prop :=
  ∀ (i : Instr) (s t : State), exec i s = .next t →
    t.cfg = s.cfg ∧ t.inbox = s.inbox ∧
    ((match i with | .bbwrite _ _ | .bbreset => False | _ => True) → t.bbwr = s.bbwr) ∧
    ((match i with | .bbread .buffer _ | .fiblatch | .bbreset => False | _ => True) → t.bbrd = s.bbrd) ∧
    ((match i with | .bbslice _ _ | .bbread .view _ | .bbreset => False | _ => True) → t.view = s.view) ∧
    ((match i with | .msccfg _ _ _ => False | _ => True) → t.subch = s.subch) ∧
    ((match i with | .mscparse _ | .bbreset => False | _ => True) → t.msc = s.msc)

/-- Only the assembly commands change the FIC state: FICCFG the count; FICNEW, FIBLATCH and FIBCOMMIT the machine's
state; FIBLATCH the holding register; FIBCOMMIT the records; FICNEW and FIBCOMMIT the number of FIBs and the validity
flags (10_state.md section 4, 42_frame_fic.md section 2). -/
def Obligations.FicStateHasItsWriters : Prop :=
  ∀ (i : Instr) (s t : State), exec i s = .next t →
    ((match i with | .ficcfg _ => False | _ => True) → t.fibcount = s.fibcount) ∧
    ((match i with | .ficnew | .fiblatch | .fibcommit => False | _ => True) → t.fstate = s.fstate) ∧
    ((match i with | .fiblatch => False | _ => True) → t.hold = s.hold) ∧
    ((match i with | .fibcommit => False | _ => True) → t.fibmem = s.fibmem) ∧
    ((match i with | .ficnew | .fibcommit => False | _ => True) →
      t.fibn = s.fibn ∧ t.fibvalid = s.fibvalid ∧ t.framevalid = s.framevalid)

/-- A FIB that has been appended stays as it is, with its validity flag, under every command but FICNEW, and a frame
flag that is 0 stays 0 (10_state.md section 4, 42_frame_fic.md section 4). -/
def Obligations.AppendedFibsStayUntilFicnew : Prop :=
  ∀ (i : Instr) (s t : State), i ≠ .ficnew → exec i s = .next t →
    s.fibn ≤ t.fibn ∧ (s.framevalid = false → t.framevalid = false) ∧
    ∀ k : Fin 4, k.val < s.fibn → t.fibmem[k] = s.fibmem[k] ∧ t.fibvalid[k] = s.fibvalid[k]

/-- No step changes the parameters of the instance: the buffer is never resized (40_bitbuffer.md section 2,
70_reset_and_hazards.md section 1). -/
def Obligations.EveryStepKeepsTheParameters : Prop :=
  ∀ s t : State, step s = .next t → t.cfg = s.cfg

/-! ### BitBuffer -/

/-- 40_bitbuffer.md R111. -/
def Obligations.BbwriteStoresTheField : Prop :=
  ∀ (w : BitVec 8) (v : Operand) (s : State), Memory.wf s.bit →
    encode (.bbwrite w v) = ⟨0x10000000#32 + w.setWidth 32, v, 0⟩ ∧
    (if w.toNat < 1 ∨ 64 < w.toNat then
      exec (.bbwrite w v) s = .next { s with rsp := some ⟨.illegalOperand, 0⟩ }
    else if s.cfg.capBits < s.bbwr + w.toNat then
      exec (.bbwrite w v) s = .next { s with rsp := some ⟨.overflow, 0⟩ }
    else ∃ m : Memory,
      exec (.bbwrite w v) s = .next { s with bit := m, bbwr := s.bbwr + w.toNat, rsp := some ⟨.ok, 0⟩ } ∧
      (∀ k < w.toNat, Memory.getBit m (s.bbwr + k) = v.getLsbD (w.toNat - 1 - k)) ∧
      ∀ a, a < s.bbwr ∨ s.bbwr + w.toNat ≤ a → Memory.getBit m a = Memory.getBit s.bit a)

/-- 40_bitbuffer.md R113. A read through the view takes the view's invariant (10_state.md R27) as premise. -/
def Obligations.BbreadReturnsTheFieldAndAdvances : Prop :=
  ∀ (w : BitVec 8) (s : State),
    encode (.bbread .buffer w) = ⟨0x11000000#32 + w.setWidth 32, 0, 0⟩ ∧
    encode (.bbread .view w) = ⟨0x11800000#32 + w.setWidth 32, 0, 0⟩ ∧
    (if w.toNat < 1 ∨ 64 < w.toNat then
      ∀ target, exec (.bbread target w) s = .next { s with rsp := some ⟨.illegalOperand, 0⟩ }
    else
      (if s.bbwr < s.bbrd + w.toNat then
        exec (.bbread .buffer w) s = .next { s with rsp := some ⟨.underflow, 0⟩ }
      else ∃ v : Operand, IsField s.bit s.bbrd w.toNat v ∧
        exec (.bbread .buffer w) s = .next { s with bbrd := s.bbrd + w.toNat, rsp := some ⟨.ok, v⟩ }) ∧
      (if s.view.valid = false then
        exec (.bbread .view w) s = .next { s with rsp := some ⟨.illegalState, 0⟩ }
      else if s.view.len < s.view.rd + w.toNat then
        exec (.bbread .view w) s = .next { s with rsp := some ⟨.underflow, 0⟩ }
      else ViewInv s → ∃ v : Operand, IsField s.bit (s.view.base + s.view.rd) w.toNat v ∧
        exec (.bbread .view w) s
          = .next { s with view := { s.view with rd := s.view.rd + w.toNat }, rsp := some ⟨.ok, v⟩ }))

/-- 40_bitbuffer.md R114. A read through the view takes the view's invariant (10_state.md R27) as premise. -/
def Obligations.BbpeekReturnsTheFieldAndStays : Prop :=
  ∀ (w : BitVec 8) (s : State),
    encode (.bbpeek .buffer w) = ⟨0x12000000#32 + w.setWidth 32, 0, 0⟩ ∧
    encode (.bbpeek .view w) = ⟨0x12800000#32 + w.setWidth 32, 0, 0⟩ ∧
    (if w.toNat < 1 ∨ 64 < w.toNat then
      ∀ target, exec (.bbpeek target w) s = .next { s with rsp := some ⟨.illegalOperand, 0⟩ }
    else
      (if s.bbwr < s.bbrd + w.toNat then
        exec (.bbpeek .buffer w) s = .next { s with rsp := some ⟨.underflow, 0⟩ }
      else ∃ v : Operand, IsField s.bit s.bbrd w.toNat v ∧
        exec (.bbpeek .buffer w) s = .next { s with rsp := some ⟨.ok, v⟩ }) ∧
      (if s.view.valid = false then
        exec (.bbpeek .view w) s = .next { s with rsp := some ⟨.illegalState, 0⟩ }
      else if s.view.len < s.view.rd + w.toNat then
        exec (.bbpeek .view w) s = .next { s with rsp := some ⟨.underflow, 0⟩ }
      else ViewInv s → ∃ v : Operand, IsField s.bit (s.view.base + s.view.rd) w.toNat v ∧
        exec (.bbpeek .view w) s = .next { s with rsp := some ⟨.ok, v⟩ }))

/-- 40_bitbuffer.md R115, with the invariants of 10_state.md R25 and R27 for "never negative". -/
def Obligations.BbremCountsTheReadableBits : Prop :=
  ∀ s : State,
    encode (.bbrem .buffer) = ⟨0x13000000#32, 0, 0⟩ ∧ encode (.bbrem .view) = ⟨0x13800000#32, 0, 0⟩ ∧
    (∃ v : Operand, exec (.bbrem .buffer) s = .next { s with rsp := some ⟨.ok, v⟩ } ∧
      (Inv s → v.toNat + s.bbrd = s.bbwr)) ∧
    (if s.view.valid = false then
      exec (.bbrem .view) s = .next { s with rsp := some ⟨.illegalState, 0⟩ }
    else ∃ v : Operand, exec (.bbrem .view) s = .next { s with rsp := some ⟨.ok, v⟩ } ∧
      (Inv s → v.toNat + s.view.rd = s.view.len))

/-- A read of `w` bits succeeds exactly when `w` is in 1 .. 64 and at most what BBREM returns for the same target
(40_bitbuffer.md section 2). -/
def Obligations.ReadSucceedsExactlyWhenBbremAllows : Prop :=
  ∀ (target : Target) (w : BitVec 8) (s : State), Inv s →
    ((∃ (t : State) (v : Operand), exec (.bbread target w) s = .next t ∧ t.rsp = some ⟨.ok, v⟩) ↔
      (1 ≤ w.toNat ∧ w.toNat ≤ 64 ∧
        ∃ (u : State) (r : Operand), exec (.bbrem target) s = .next u ∧ u.rsp = some ⟨.ok, r⟩ ∧ w.toNat ≤ r.toNat))

/-- 40_bitbuffer.md R117. -/
def Obligations.BbresetEmptiesTheBuffer : Prop :=
  encode .bbreset = ⟨0x14000000#32, 0, 0⟩ ∧
  ∀ s : State, exec .bbreset s =
    .next { s with
      bbwr := 0, bbrd := 0, view := ⟨false, 0, 0, 0⟩, msc := ⟨false, 0, 0, 0, false, false⟩,
      rsp := some ⟨.ok, 0⟩ }

/-- 40_bitbuffer.md R119; the sum is taken in the natural numbers. -/
def Obligations.BbsliceSetsTheView : Prop :=
  ∀ (start length : Operand) (s : State),
    encode (.bbslice start length) = ⟨0x15000000#32, start, length⟩ ∧
    (if s.bbwr < start.toNat + length.toNat then
      exec (.bbslice start length) s = .next { s with rsp := some ⟨.range, 0⟩ }
    else exec (.bbslice start length) s =
      .next { s with view := ⟨true, start.toNat, length.toNat, 0⟩, rsp := some ⟨.ok, 0⟩ })

/-- BBPEEK and BBREAD of the same width return the same response, and a BBPEEK before the BBREAD does not change what
the BBREAD returns (40_bitbuffer.md section 2). -/
def Obligations.PeekAgreesWithRead : Prop :=
  ∀ (target : Target) (w : BitVec 8) (s p : State), exec (.bbpeek target w) s = .next p →
    ∃ r r' : State, exec (.bbread target w) s = .next r ∧ exec (.bbread target w) p = .next r' ∧
      p.rsp = r.rsp ∧ r' = r

/-- The round trip of 40_bitbuffer.md section 2 (the source's property): with nothing unread and room for the field,
BBWRITE then BBREAD of the same width answer OK twice and return the low `w` bits of the value, which are the value
where it fits. -/
def Obligations.WriteThenReadReturnsTheValue : Prop :=
  ∀ (w : BitVec 8) (v : Operand) (s : State), Memory.wf s.bit → s.bbrd = s.bbwr → 1 ≤ w.toNat → w.toNat ≤ 64 →
    s.bbwr + w.toNat ≤ s.cfg.capBits →
    ∃ t u : State, exec (.bbwrite w v) s = .next t ∧ t.rsp = some ⟨.ok, 0⟩ ∧
      exec (.bbread .buffer w) t = .next u ∧ u.rsp = some ⟨.ok, BitVec.ofNat 64 (v.toNat % 2 ^ w.toNat)⟩ ∧
      u.bbrd = u.bbwr ∧ (v.toNat < 2 ^ w.toNat → u.rsp = some ⟨.ok, v⟩)

/-- Any sequence of fields written one after another and read back in the same widths and order comes back, each cut to
its width (40_bitbuffer.md section 2, 20_memory.md section 2). -/
def Obligations.WrittenFieldsReadBackInOrder : Prop :=
  ∀ (fields : List (BitVec 8 × Operand)) (s : State), Memory.wf s.bit → s.bbrd = s.bbwr →
    (∀ f ∈ fields, 1 ≤ f.1.toNat ∧ f.1.toNat ≤ 64) →
    s.bbwr + (fields.map fun f => f.1.toNat).sum ≤ s.cfg.capBits →
    ∃ t : State,
      runCommands
          ((fields.map fun f => Instr.bbwrite f.1 f.2) ++ fields.map fun f => Instr.bbread .buffer f.1) s
        = some ((fields.map fun _ => (⟨.ok, 0⟩ : Response)) ++
            fields.map fun f => ⟨.ok, BitVec.ofNat 64 (f.2.toNat % 2 ^ f.1.toNat)⟩, t) ∧
      t.bbwr = s.bbwr + (fields.map fun f => f.1.toNat).sum ∧ t.bbrd = t.bbwr

/-! ### CRC Engine -/

/-- The table-driven byte step is eight bit steps, most significant bit of the byte first (41_crc.md section 1). -/
def Obligations.TableStepIsEightBitSteps : Prop :=
  ∀ (c : Crc) (b : Byte),
    crcStep c b = [7, 6, 5, 4, 3, 2, 1, 0].foldl (fun c k => crcBitStep c (b.getLsbD k)) c

/-- 41_crc.md R145. -/
def Obligations.CrccompReturnsTheRangesCrc : Prop :=
  ∀ (start length : Operand) (s : State),
    encode (.crccomp start length) = ⟨0x20000000#32, start, length⟩ ∧
    (if length.toNat % 8 ≠ 0 then
      exec (.crccomp start length) s = .next { s with rsp := some ⟨.illegalOperand, 0⟩ }
    else if s.bbwr < start.toNat + length.toNat then
      exec (.crccomp start length) s = .next { s with rsp := some ⟨.range, 0⟩ }
    else ∃ d : List Byte, IsBytes s.bit start.toNat (length.toNat / 8) d ∧
      exec (.crccomp start length) s
        = .next { s with rsp := some ⟨.ok, (crc16 s.cfg.crcXorout d).setWidth 64⟩ })

/-- 41_crc.md R146. -/
def Obligations.CrcverifyComparesTheRangesCrc : Prop :=
  ∀ (exp : Crc) (start length : Operand) (s : State),
    encode (.crcverify exp start length) = ⟨0x21000000#32 + exp.setWidth 32, start, length⟩ ∧
    (if length.toNat % 8 ≠ 0 then
      exec (.crcverify exp start length) s = .next { s with rsp := some ⟨.illegalOperand, 0⟩ }
    else if s.bbwr < start.toNat + length.toNat then
      exec (.crcverify exp start length) s = .next { s with rsp := some ⟨.range, 0⟩ }
    else ∃ d : List Byte, IsBytes s.bit start.toNat (length.toNat / 8) d ∧
      exec (.crcverify exp start length) s
        = .next { s with rsp := some ⟨.ok, if crc16 s.cfg.crcXorout d = exp then 1 else 0⟩ })

/-- 41_crc.md R147: for every range CRCCOMP accepts, and every final XOR, CRCVERIFY with the CRC it returned answers 1,
and answers 0 once any one bit of the range is flipped. -/
def Obligations.SingleBitErrorsAreDetected : Prop :=
  ∀ (start length : Operand) (s t : State) (c : Operand), Memory.wf s.bit →
    exec (.crccomp start length) s = .next t → t.rsp = some ⟨.ok, c⟩ →
    exec (.crcverify (c.setWidth 16) start length) s = .next { s with rsp := some ⟨.ok, 1⟩ } ∧
    ∀ a, start.toNat ≤ a → a < start.toNat + length.toNat →
      let flipped := { s with bit := Memory.setBit s.bit a (!Memory.getBit s.bit a) }
      exec (.crcverify (c.setWidth 16) start length) flipped = .next { flipped with rsp := some ⟨.ok, 0⟩ }

/-! ### FIC assembly -/

/-- 42_frame_fic.md R161: a FIB is valid exactly when the CRC of its first 30 bytes is its last two, high byte
first. -/
def Obligations.FibValidityIsTheCrcComparison : Prop :=
  ∀ (xorout : Crc) (f : Fib),
    fibValid xorout f = true ↔
      (crc16 xorout ((List.finRange 30).map fun j => f[j.val])).toNat = f[30].toNat * 256 + f[31].toNat

/-- Any payload with its own CRC after it is a valid FIB, and a valid FIB with any one of its 256 bits flipped is not
(42_frame_fic.md section 4, for every payload and every final XOR). -/
def Obligations.OwnCrcValidatesAndOneFlippedBitDoesNot : Prop :=
  ∀ (xorout : Crc) (f : Fib),
    fibValid xorout
      ((f.set 30 ((crc16 xorout (f.toList.take 30)).extractLsb' 8 8)).set 31
        ((crc16 xorout (f.toList.take 30)).extractLsb' 0 8)) = true ∧
    (fibValid xorout f = true → ∀ (j : Fin 32) (k : Nat), k < 8 →
      fibValid xorout (f.set j (f[j] ^^^ (1#8 <<< k))) = false)

/-- 42_frame_fic.md R164. -/
def Obligations.FiccfgSetsTheCount : Prop :=
  ∀ (n : BitVec 8) (s : State),
    encode (.ficcfg n) = ⟨0x30000000#32 + n.setWidth 32, 0, 0⟩ ∧
    (if n.toNat ≠ 3 ∧ n.toNat ≠ 4 then
      exec (.ficcfg n) s = .next { s with rsp := some ⟨.illegalOperand, 0⟩ }
    else if s.fstate ≠ .awaitingFib ∨ s.fibn ≠ 0 then
      exec (.ficcfg n) s = .next { s with rsp := some ⟨.illegalState, 0⟩ }
    else exec (.ficcfg n) s = .next { s with fibcount := n.toNat, rsp := some ⟨.ok, 0⟩ })

/-- 42_frame_fic.md R165. -/
def Obligations.FicnewStartsAFrame : Prop :=
  encode .ficnew = ⟨0x31000000#32, 0, 0⟩ ∧
  ∀ s : State, exec .ficnew s =
    .next { s with
      fstate := .awaitingFib, fibn := 0, fibvalid := #v[false, false, false, false], framevalid := true,
      rsp := some ⟨.ok, 0⟩ }

/-- 42_frame_fic.md R166. -/
def Obligations.FiblatchTakesTheNextFib : Prop :=
  encode .fiblatch = ⟨0x32000000#32, 0, 0⟩ ∧
  ∀ s : State,
    if s.fibcount = 0 ∨ s.fstate ≠ .awaitingFib then
      exec .fiblatch s = .next { s with rsp := some ⟨.illegalState, 0⟩ }
    else if s.bbwr - s.bbrd < 256 then
      exec .fiblatch s = .next { s with rsp := some ⟨.underflow, 0⟩ }
    else ∃ h : Fib, (∀ j : Fin 32, IsField s.bit (s.bbrd + 8 * j.val) 8 h[j]) ∧
      exec .fiblatch s =
        .next { s with hold := h, bbrd := s.bbrd + 256, fstate := .fibComplete, rsp := some ⟨.ok, 0⟩ }

/-- 42_frame_fic.md R167. That `FIBN` names a record (corner case (c)) is the premise; the invariants give it. -/
def Obligations.FibcommitAppendsTheLatchedFib : Prop :=
  encode .fibcommit = ⟨0x33000000#32, 0, 0⟩ ∧
  ∀ s : State,
    if s.fstate ≠ .fibComplete then
      exec .fibcommit s = .next { s with rsp := some ⟨.illegalState, 0⟩ }
    else ∀ h : s.fibn < 4,
      let v := fibValid s.cfg.crcXorout s.hold
      exec .fibcommit s =
        .next { s with
          fibmem := s.fibmem.set s.fibn s.hold
          fibvalid := s.fibvalid.set s.fibn v
          framevalid := s.framevalid && v
          fibn := s.fibn + 1
          fstate := if s.fibn + 1 < s.fibcount then .awaitingFib else .frameComplete
          rsp := some ⟨.ok, if v then 1 else 0⟩ }

/-- 42_frame_fic.md R168. -/
def Obligations.FibrdReturnsTheByte : Prop :=
  ∀ (idx : BitVec 2) (off : BitVec 5) (s : State),
    encode (.fibrd idx off) = ⟨0x34000000#32 + (idx.setWidth 32 <<< 8) + off.setWidth 32, 0, 0⟩ ∧
    (if s.fibn ≤ idx.toNat then
      exec (.fibrd idx off) s = .next { s with rsp := some ⟨.illegalState, 0⟩ }
    else exec (.fibrd idx off) s =
      .next { s with rsp := some ⟨.ok, (s.fibmem[idx.toFin][off.toFin]).setWidth 64⟩ })

/-- From a configured instance with enough unread bits, FICNEW and then exactly `FIBCOUNT` pairs of FIBLATCH and
FIBCOMMIT, whatever the CRCs, answer OK and complete the frame: `FIBCOUNT` FIBs, each the next 256 bits with its own
validity, and a frame flag that is their conjunction; after fewer pairs the machine awaits a FIB (42_frame_fic.md
section 4). -/
def Obligations.FrameCompletesAfterItsFibs : Prop :=
  ∀ (s : State) (n : Nat), s.fibcount = 3 ∨ s.fibcount = 4 → n ≤ s.fibcount →
    s.bbrd + 256 * n ≤ s.bbwr →
    ∃ (rs : List Response) (t : State), runCommands (.ficnew :: fibPushes n) s = some (rs, t) ∧
      rs.length = 1 + 2 * n ∧ (∀ r ∈ rs, r.status = .ok) ∧ t.fibn = n ∧ t.bbrd = s.bbrd + 256 * n ∧
      t.fstate = (if n = s.fibcount then .frameComplete else .awaitingFib) ∧
      (∀ k : Fin 4, k.val < n →
        (∀ j : Fin 32, IsField s.bit (s.bbrd + 256 * k.val + 8 * j.val) 8 t.fibmem[k][j]) ∧
        t.fibvalid[k] = fibValid s.cfg.crcXorout t.fibmem[k]) ∧
      (t.framevalid = true ↔ ∀ k : Fin 4, k.val < n → t.fibvalid[k] = true)

/-! ### MSC parsing -/

/-- 43_frame_msc.md R181; the other rows keep what they hold. -/
def Obligations.MsccfgWritesTheRow : Prop :=
  ∀ (hc : Bool) (id : BitVec 8) (plen : Operand) (s : State), subchWf s.subch →
    encode (.msccfg hc id plen) = ⟨0x38000000#32 + (if hc then 256#32 else 0#32) + id.setWidth 32, plen, 0⟩ ∧
    (if s.cfg.nsubch ≤ id.toNat ∨ (hc = true ∧ plen.toNat % 8 ≠ 0) then
      exec (.msccfg hc id plen) s = .next { s with rsp := some ⟨.illegalOperand, 0⟩ }
    else ∃ table : List (Nat × SubchRow),
      exec (.msccfg hc id plen) s = .next { s with subch := table, rsp := some ⟨.ok, 0⟩ } ∧
      subchRead table id.toNat = ⟨true, plen, hc⟩ ∧
      ∀ id', id' ≠ id.toNat → subchRead table id' = subchRead s.subch id')

/-- 43_frame_msc.md R183, with the view's invariant (10_state.md R27) as premise of the parse itself. -/
def Obligations.MscparseRecordsTheFrame : Prop :=
  ∀ (id : BitVec 8) (s : State),
    let row := subchRead s.subch id.toNat
    encode (.mscparse id) = ⟨0x39000000#32 + id.setWidth 32, 0, 0⟩ ∧
    (if s.cfg.nsubch ≤ id.toNat then
      exec (.mscparse id) s = .next { s with rsp := some ⟨.illegalOperand, 0⟩ }
    else if row.cfgd = false ∨ s.view.valid = false then
      exec (.mscparse id) s = .next { s with rsp := some ⟨.illegalState, 0⟩ }
    else if s.view.len < row.plen.toNat then
      exec (.mscparse id) s = .next { s with rsp := some ⟨.lengthMismatch, 0⟩ }
    else ViewInv s → ∃ v : Bool,
      exec (.mscparse id) s =
        .next { s with
          msc := ⟨true, id, s.view.base, row.plen.toNat, row.hc, v⟩
          rsp := some ⟨.ok, if v then 1 else 0⟩ } ∧
      (if row.hc = false then v = true
      else if s.view.len < row.plen.toNat + 16 then v = false
      else ∃ (d : List Byte) (c : Crc), IsBytes s.bit s.view.base (row.plen.toNat / 8) d ∧
        IsField s.bit (s.view.base + row.plen.toNat) 16 c ∧ (v = true ↔ crc16 s.cfg.crcXorout d = c)))

/-- While the MSC record is present its payload can be sliced again: BBSLICE of `MSCBASE`, `MSCLEN` sets the view to
exactly that range (43_frame_msc.md section 1). -/
def Obligations.ParsedPayloadCanBeSliced : Prop :=
  ∀ s : State, Inv s → s.msc.present = true →
    exec (.bbslice (BitVec.ofNat 64 s.msc.base) (BitVec.ofNat 64 s.msc.len)) s =
      .next { s with view := ⟨true, s.msc.base, s.msc.len, 0⟩, rsp := some ⟨.ok, 0⟩ }

/-! ### Status registers -/

/-- 44_system.md R190 and 10_state.md R41: the values of the twelve registers in every state, that they fit 64 bits in
every state that meets the invariants, and what they read after reset. -/
def Obligations.RdsrReturnsTheRegister : Prop :=
  (∀ n : BitVec 8, encode (.rdsr n) = ⟨0x01000000#32 + n.setWidth 32, 0, 0⟩) ∧
  (∀ (n : BitVec 8) (s : State), 11 < n.toNat →
    exec (.rdsr n) s = .next { s with rsp := some ⟨.illegalOperand, 0⟩ }) ∧
  (∀ s : State,
    let sr := fun (n : BitVec 8) (v : Nat) =>
      exec (.rdsr n) s = .next { s with rsp := some ⟨.ok, BitVec.ofNat 64 v⟩ } ∧ (Inv s → v < 2 ^ 64)
    sr 0 (8 * s.cfg.capBytes) ∧ sr 1 s.bbwr ∧ sr 2 s.bbrd ∧ sr 3 s.view.valid.toNat ∧ sr 4 s.view.base ∧
    sr 5 s.view.len ∧ sr 6 s.view.rd ∧ sr 7 s.fibcount ∧
    sr 8 ((match s.fstate with | .awaitingFib => 0 | .fibComplete => 1 | .frameComplete => 2) + 4 * s.fibn +
      32 * s.fibvalid[0].toNat + 64 * s.fibvalid[1].toNat + 128 * s.fibvalid[2].toNat + 256 * s.fibvalid[3].toNat +
      512 * s.framevalid.toNat) ∧
    sr 9 (s.msc.present.toNat + 2 * s.msc.hasCrc.toNat + 4 * s.msc.valid.toNat + 256 * s.msc.subch.toNat) ∧
    sr 10 s.msc.base ∧ sr 11 s.msc.len) ∧
  (∀ (p : Params) (n : BitVec 8), n.toNat ≤ 11 →
    exec (.rdsr n) (State.resetWith p) = .next { State.resetWith p with
      rsp := some ⟨.ok, if n = 0 then BitVec.ofNat 64 (8 * p.capBytes) else if n = 8 then 0x200 else 0⟩ })
end

