-- ==== Sys2Proof/Laws/Store.lean ====
section
/-! SUPPORT. The laws of sparse stores: a read after a write, the canonical form, and that equal contents are equal
data; then the same for the storage bytes and the subchannel table. -/

namespace Sys2Proof.Machine

variable {α : Type}

theorem Store.read_write [DecidableEq α] (d : α) (l : List (Nat × α)) (a b : Nat) (v : α)
    (h : l.Pairwise fun x y => x.1 < y.1) :
    Store.read d (Store.write d l a v) b = if b = a then v else Store.read d l b := by
  induction l with
  | nil =>
    by_cases hv : v = d <;> by_cases hb : b = a <;> simp [Store.write, Store.read, hv, hb]
  | cons c rest ih =>
    obtain ⟨k, w⟩ := c
    obtain ⟨hk, hrest⟩ := List.pairwise_cons.1 h
    have absent : ∀ (r : List (Nat × α)) (x : Nat), (∀ y ∈ r, x < y.1) → Store.read d r x = d := by
      intro r x
      induction r with
      | nil => intro _; rfl
      | cons y ys ihr =>
        intro hy
        have h1 : x ≠ y.1 := Nat.ne_of_lt (hy y List.mem_cons_self)
        simp only [Store.read, h1, if_false]
        exact ihr fun z hz => hy z (List.mem_cons_of_mem _ hz)
    unfold Store.write
    by_cases h1 : a < k
    · by_cases hv : v = d
      · by_cases hb : b = a
        · subst hb hv
          simp only [h1, if_true]
          refine absent _ _ fun y hy => ?_
          rcases List.mem_cons.1 hy with rfl | hy
          · exact h1
          · exact lt_trans h1 (hk y hy)
        · simp [h1, hv, hb]
      · simp [h1, hv, Store.read]
    · by_cases h2 : a = k
      · subst h2
        by_cases hv : v = d
        · by_cases hb : b = a
          · subst hb
            simpa [hv] using absent rest b hk
          · simp [hv, hb, Store.read]
        · by_cases hb : b = a <;> simp [hv, hb, Store.read]
      · simp only [h1, h2, if_false, Store.read, ih hrest]
        by_cases hb : b = k
        · have : b ≠ a := fun h => h2 (h.symm.trans hb)
          simp [hb, Ne.symm h2]
        · simp [hb]

theorem Store.mem_write [DecidableEq α] (d : α) (l : List (Nat × α)) (a : Nat) (v : α) (c : Nat × α)
    (h : c ∈ Store.write d l a v) : c ∈ l ∨ (c = (a, v) ∧ v ≠ d) := by
  induction l with
  | nil =>
    by_cases hv : v = d <;> simp_all [Store.write]
  | cons x rest ih =>
    obtain ⟨k, w⟩ := x
    unfold Store.write at h
    split_ifs at h <;> simp only [List.mem_cons] at h ⊢ <;> tauto

theorem Store.write_wf [DecidableEq α] (d : α) (l : List (Nat × α)) (a : Nat) (v : α) (h : Store.wf d l) :
    Store.wf d (Store.write d l a v) := by
  refine ⟨?_, fun c hc => ?_⟩
  · obtain ⟨hs, -⟩ := h
    induction l with
    | nil => by_cases hv : v = d <;> simp [Store.write, hv]
    | cons x rest ih =>
      obtain ⟨k, w⟩ := x
      obtain ⟨hk, hrest⟩ := List.pairwise_cons.1 hs
      unfold Store.write
      split_ifs with h1 hv h2 hv
      · exact hs
      · refine List.pairwise_cons.2 ⟨fun y hy => ?_, hs⟩
        rcases List.mem_cons.1 hy with rfl | hy
        · exact h1
        · exact lt_trans h1 (hk y hy)
      · exact hrest
      · exact List.pairwise_cons.2 ⟨fun y hy => h2 ▸ hk y hy, hrest⟩
      · refine List.pairwise_cons.2 ⟨fun y hy => ?_, ih hrest⟩
        rcases Store.mem_write d rest a v y hy with hy | ⟨rfl, -⟩
        · exact hk y hy
        · exact lt_of_le_of_ne (not_lt.1 h1) (Ne.symm h2)
  · rcases Store.mem_write d l a v c hc with hc | ⟨rfl, hv⟩
    · exact h.2 c hc
    · exact hv

theorem Store.read_of_lt (d : α) (l : List (Nat × α)) (a : Nat) (h : ∀ c ∈ l, a < c.1) : Store.read d l a = d := by
  induction l with
  | nil => rfl
  | cons x rest ih =>
    have h1 : a ≠ x.1 := Nat.ne_of_lt (h x List.mem_cons_self)
    simpa [Store.read, h1] using ih fun c hc => h c (List.mem_cons_of_mem _ hc)

theorem Store.read_ne_mem (d : α) (l : List (Nat × α)) (a : Nat) (h : Store.read d l a ≠ d) :
    (a, Store.read d l a) ∈ l := by
  induction l with
  | nil => exact absurd rfl h
  | cons x rest ih =>
    obtain ⟨k, w⟩ := x
    unfold Store.read at h ⊢
    by_cases hk : a = k
    · simp [hk]
    · simp only [hk, if_false] at h ⊢
      exact List.mem_cons_of_mem _ (ih h)

/-- Equal contents are equal data. -/
theorem Store.ext_of_read (d : α) (l r : List (Nat × α)) (hl : Store.wf d l) (hr : Store.wf d r)
    (h : ∀ a, Store.read d l a = Store.read d r a) : l = r := by
  induction l generalizing r with
  | nil =>
    cases r with
    | nil => rfl
    | cons y ys =>
      have := h y.1
      simp only [Store.read, if_true] at this
      exact absurd this.symm (hr.2 y List.mem_cons_self)
  | cons x xs ih =>
    obtain ⟨k, v⟩ := x
    obtain ⟨hk, hxs⟩ := List.pairwise_cons.1 hl.1
    have hv : v ≠ d := hl.2 _ List.mem_cons_self
    cases r with
    | nil =>
      have := h k
      simp only [Store.read, if_true] at this
      exact absurd this hv
    | cons y ys =>
      obtain ⟨k', v'⟩ := y
      obtain ⟨hk', hys⟩ := List.pairwise_cons.1 hr.1
      have hv' : v' ≠ d := hr.2 _ List.mem_cons_self
      have e1 := h k
      have e2 := h k'
      simp only [Store.read, if_true] at e1 e2
      have hkk : k = k' := by
        rcases lt_trichotomy k k' with hlt | heq | hgt
        · rw [if_neg (Nat.ne_of_lt hlt),
            Store.read_of_lt d ys k fun c hc => lt_trans hlt (hk' c hc)] at e1
          exact absurd e1 hv
        · exact heq
        · rw [if_neg (Nat.ne_of_lt hgt),
            Store.read_of_lt d xs k' fun c hc => lt_trans hgt (hk c hc)] at e2
          exact absurd e2.symm hv'
      subst hkk
      have hvv : v = v' := by simpa using e1
      subst hvv
      congr 1
      refine ih ys ⟨hxs, fun c hc => hl.2 c (List.mem_cons_of_mem _ hc)⟩
        ⟨hys, fun c hc => hr.2 c (List.mem_cons_of_mem _ hc)⟩ fun a => ?_
      have ha := h a
      simp only [Store.read] at ha
      by_cases hak : a = k
      · subst hak
        rw [Store.read_of_lt d xs a hk, Store.read_of_lt d ys a hk']
      · simpa [hak] using ha

/-! ### The storage bytes -/

theorem Memory.read_write (m : Memory) (a b : Nat) (v : Byte) (h : Memory.wf m) :
    Memory.read (Memory.write m a v) b = if b = a then v else Memory.read m b :=
  Store.read_write _ m a b v h.1

theorem Memory.write_wf (m : Memory) (a : Nat) (v : Byte) (h : Memory.wf m) : Memory.wf (Memory.write m a v) :=
  Store.write_wf _ m a v h

theorem Memory.setBit_wf (m : Memory) (i : Nat) (b : Bool) (h : Memory.wf m) : Memory.wf (Memory.setBit m i b) :=
  Memory.write_wf m _ _ h

theorem Memory.writeBits_wf (m : Memory) (addr n v : Nat) (h : Memory.wf m) :
    Memory.wf (Memory.writeBits m addr n v) := by
  induction n generalizing v with
  | zero => exact h
  | succ n ih => exact Memory.setBit_wf _ _ _ (ih (v / 2))

theorem reset_memory_wf (p : Params) : Memory.wf (State.resetWith p).bit := by
  simp [State.resetWith, Memory.wf, Store.wf]

/-! ### The subchannel table -/

theorem subchRead_subchWrite (t : List (Nat × SubchRow)) (id id' : Nat) (row : SubchRow) (h : subchWf t) :
    subchRead (subchWrite t id row) id' = if id' = id then row else subchRead t id' :=
  Store.read_write _ t id id' row h.1

theorem subchWrite_wf (t : List (Nat × SubchRow)) (id : Nat) (row : SubchRow) (h : subchWf t) :
    subchWf (subchWrite t id row) :=
  Store.write_wf _ t id row h

end Sys2Proof.Machine
end

