-- ==== Sys2Proof/Laws/Bits.lean ====
section
/-! SUPPORT. The laws of bits, fields and bytes of the bit store: what a read of a field or of bytes gives, what a
write of a field leaves. -/

namespace Sys2Proof.Machine

/-! ### One bit -/

theorem setByteBit_getLsbD (x : Byte) (k j : Nat) (b : Bool) (hk : k < 8) (hj : j < 8) :
    (setByteBit x k b).getLsbD (7 - j) = if j = k then b else x.getLsbD (7 - j) := by
  unfold setByteBit
  interval_cases k <;> interval_cases j <;> cases b <;> simp

theorem Memory.getBit_setBit (m : Memory) (i j : Nat) (b : Bool) (h : Memory.wf m) :
    Memory.getBit (Memory.setBit m i b) j = if j = i then b else Memory.getBit m j := by
  have hi := Nat.mod_lt i (by decide : 0 < 8)
  have hj := Nat.mod_lt j (by decide : 0 < 8)
  unfold Memory.getBit Memory.setBit
  rw [Memory.read_write _ _ _ _ h]
  by_cases hd : j / 8 = i / 8
  · rw [if_pos hd, setByteBit_getLsbD _ _ _ _ hi hj, hd]
    by_cases hm : j % 8 = i % 8
    · rw [if_pos hm, if_pos (by omega)]
    · rw [if_neg hm, if_neg (by omega)]
  · rw [if_neg hd, if_neg (by omega)]

/-- A storage byte is the eight bits at its place (00_scope.md R14). -/
theorem Memory.read_getLsbD (m : Memory) (a k : Nat) (hk : k < 8) :
    (Memory.read m a).getLsbD (7 - k) = Memory.getBit m (8 * a + k) := by
  unfold Memory.getBit
  rw [show (8 * a + k) / 8 = a by omega, show (8 * a + k) % 8 = k by omega]

/-- Two storage bytes with the same eight bits are equal. -/
theorem Memory.read_congr (m m' : Memory) (a : Nat)
    (h : ∀ k < 8, Memory.getBit m (8 * a + k) = Memory.getBit m' (8 * a + k)) : Memory.read m a = Memory.read m' a := by
  refine BitVec.eq_of_getLsbD_eq fun j hj => ?_
  have := h (7 - j) (by omega)
  rw [← Memory.read_getLsbD _ _ _ (by omega), ← Memory.read_getLsbD _ _ _ (by omega),
    show 7 - (7 - j) = j by omega] at this
  exact this

/-! ### Fields -/

theorem Memory.readBits_lt (m : Memory) (addr n : Nat) : Memory.readBits m addr n < 2 ^ n := by
  induction n with
  | zero => simp [Memory.readBits]
  | succ n ih =>
    have := Bool.toNat_lt (Memory.getBit m (addr + n))
    simp only [Memory.readBits, pow_succ]
    omega

theorem Memory.readBits_testBit (m : Memory) (addr n k : Nat) (hk : k < n) :
    (Memory.readBits m addr n).testBit (n - 1 - k) = Memory.getBit m (addr + k) := by
  induction n with
  | zero => omega
  | succ n ih =>
    simp only [Memory.readBits]
    have hb : (2 * Memory.readBits m addr n + (Memory.getBit m (addr + n)).toNat) / 2 = Memory.readBits m addr n := by
      cases Memory.getBit m (addr + n) <;> simp; omega
    by_cases hkn : k = n
    · subst hkn
      rw [show k + 1 - 1 - k = 0 by omega, Nat.testBit_zero]
      cases Memory.getBit m (addr + k) <;> simp
    · rw [show n + 1 - 1 - k = (n - 1 - k) + 1 by omega, Nat.testBit_succ, hb, ih (by omega)]

/-- What `MemRead` gives, as a word of `w` bits: the field at `addr` (20_memory.md R62). -/
theorem Memory.readBits_isField {w : Nat} (m : Memory) (addr n : Nat) (hn : n ≤ w) :
    IsField m addr n (BitVec.ofNat w (Memory.readBits m addr n)) := by
  refine ⟨fun k hk => ?_, fun j hj => ?_⟩
  · rw [BitVec.getLsbD_ofNat, Memory.readBits_testBit _ _ _ _ hk]
    simp only [Bool.and_eq_right_iff_imp, decide_eq_true_eq]
    omega
  · rw [BitVec.getLsbD_ofNat, Nat.testBit_lt_two_pow
      (lt_of_lt_of_le (Memory.readBits_lt m addr n) (Nat.pow_le_pow_right (by decide) hj)), Bool.and_false]

/-- A field's bits determine it. -/
theorem IsField.unique {w : Nat} {m m' : Memory} {addr addr' n : Nat} {v v' : BitVec w} (h : IsField m addr n v)
    (h' : IsField m' addr' n v') (hbits : ∀ k < n, Memory.getBit m (addr + k) = Memory.getBit m' (addr' + k)) :
    v = v' := by
  refine BitVec.eq_of_getLsbD_eq fun j _ => ?_
  by_cases hj : j < n
  · have e := h.1 (n - 1 - j) (by omega)
    have e' := h'.1 (n - 1 - j) (by omega)
    rw [show n - 1 - (n - 1 - j) = j by omega] at e e'
    rw [e, e', hbits _ (by omega)]
  · rw [h.2 j (by omega), h'.2 j (by omega)]

/-- A read depends on the bits of its range alone. -/
theorem Memory.readBits_congr (m m' : Memory) (addr n : Nat)
    (h : ∀ k < n, Memory.getBit m (addr + k) = Memory.getBit m' (addr + k)) :
    Memory.readBits m addr n = Memory.readBits m' addr n := by
  induction n with
  | zero => rfl
  | succ n ih => simp only [Memory.readBits, ih fun k hk => h k (by omega), h n (by omega)]

/-- What `MemWrite` leaves at every bit address (20_memory.md R63). -/
theorem Memory.getBit_writeBits (m : Memory) (addr n v a : Nat) (h : Memory.wf m) :
    Memory.getBit (Memory.writeBits m addr n v) a =
      if addr ≤ a ∧ a < addr + n then v.testBit (n - 1 - (a - addr)) else Memory.getBit m a := by
  induction n generalizing v with
  | zero => rw [if_neg (by omega)]; rfl
  | succ n ih =>
    simp only [Memory.writeBits]
    rw [Memory.getBit_setBit _ _ _ _ (Memory.writeBits_wf m addr n _ h), ih]
    by_cases ha : a = addr + n
    · rw [if_pos ha, if_pos (by omega), show n + 1 - 1 - (a - addr) = 0 by omega, Nat.testBit_zero]
      rfl
    · rw [if_neg ha]
      by_cases hr : addr ≤ a ∧ a < addr + n
      · rw [if_pos hr, if_pos (by omega), show n + 1 - 1 - (a - addr) = (n - 1 - (a - addr)) + 1 by omega,
          Nat.testBit_succ]
      · rw [if_neg hr, if_neg (by omega)]

theorem Memory.mem_writeBits (m : Memory) (addr n v : Nat) (c : Host.Cell) (h : c ∈ Memory.writeBits m addr n v) :
    c ∈ m ∨ ∃ k < n, c.1 = (addr + k) / 8 := by
  induction n generalizing v with
  | zero => exact .inl h
  | succ n ih =>
    rcases Store.mem_write _ _ _ _ c h with h | ⟨rfl, -⟩
    · rcases ih (v / 2) h with h | ⟨k, hk, e⟩
      · exact .inl h
      · exact .inr ⟨k, by omega, e⟩
    · exact .inr ⟨n, by omega, rfl⟩

/-! ### Bytes -/

theorem Memory.byteAt_isField (m : Memory) (addr : Nat) : IsField m addr 8 (Memory.byteAt m addr) :=
  Memory.readBits_isField m addr 8 (le_refl 8)

/-- What `MemBytes` gives: the bytes cut from `addr` (20_memory.md R66). -/
theorem Memory.bytesAt_isBytes (m : Memory) (addr count : Nat) : IsBytes m addr count (Memory.bytesAt m addr count) := by
  induction count generalizing addr with
  | zero => exact ⟨rfl, fun j h => absurd h (Nat.not_lt_zero j)⟩
  | succ n ih =>
    refine ⟨by simp [Memory.bytesAt, (ih (addr + 8)).1], fun j h => ?_⟩
    cases j with
    | zero => exact Memory.byteAt_isField m addr
    | succ j =>
      have hj : j < (Memory.bytesAt m (addr + 8) n).length := by simpa [Memory.bytesAt] using h
      have := (ih (addr + 8)).2 j hj
      rw [show addr + 8 + 8 * j = addr + 8 * (j + 1) by omega] at this
      exact this

theorem Memory.fibAt_isField (m : Memory) (addr : Nat) (j : Fin 32) :
    IsField m (addr + 8 * j.val) 8 (Memory.fibAt m addr)[j] := by
  have : (Memory.fibAt m addr)[j] = Memory.byteAt m (addr + 8 * j.val) := by simp [Memory.fibAt]
  rw [this]
  exact Memory.byteAt_isField m _

theorem Memory.bytesAt_congr (m m' : Memory) (addr count : Nat)
    (h : ∀ k < 8 * count, Memory.getBit m (addr + k) = Memory.getBit m' (addr + k)) :
    Memory.bytesAt m addr count = Memory.bytesAt m' addr count := by
  induction count generalizing addr with
  | zero => rfl
  | succ n ih =>
    simp only [Memory.bytesAt, Memory.byteAt]
    rw [Memory.readBits_congr m m' addr 8 fun k hk => h k (by omega), ih (addr + 8) fun k hk => by
      have := h (8 + k) (by omega)
      rwa [← Nat.add_assoc] at this]

theorem Memory.fibAt_congr (m m' : Memory) (addr : Nat)
    (h : ∀ k < 256, Memory.getBit m (addr + k) = Memory.getBit m' (addr + k)) :
    Memory.fibAt m addr = Memory.fibAt m' addr := by
  unfold Memory.fibAt Memory.byteAt
  congr 1
  funext j
  rw [Memory.readBits_congr m m' _ 8 fun k hk => by
    have := h (8 * j.val + k) (by omega)
    rwa [← Nat.add_assoc] at this]

end Sys2Proof.Machine
end

