-- ==== Sys2Proof/Laws/State.lean ====
section
/-! SUPPORT. One lemma per field per update of the state, each true by definition. -/

namespace Sys2Proof.Machine

/-! ### `respond` -/

@[simp] theorem State.respond_cfg (s : State) (v : Operand) : (s.respond v).cfg = s.cfg := rfl
@[simp] theorem State.respond_bit (s : State) (v : Operand) : (s.respond v).bit = s.bit := rfl
@[simp] theorem State.respond_bbwr (s : State) (v : Operand) : (s.respond v).bbwr = s.bbwr := rfl
@[simp] theorem State.respond_bbrd (s : State) (v : Operand) : (s.respond v).bbrd = s.bbrd := rfl
@[simp] theorem State.respond_view (s : State) (v : Operand) : (s.respond v).view = s.view := rfl
@[simp] theorem State.respond_fibcount (s : State) (v : Operand) : (s.respond v).fibcount = s.fibcount := rfl
@[simp] theorem State.respond_fstate (s : State) (v : Operand) : (s.respond v).fstate = s.fstate := rfl
@[simp] theorem State.respond_fibn (s : State) (v : Operand) : (s.respond v).fibn = s.fibn := rfl
@[simp] theorem State.respond_hold (s : State) (v : Operand) : (s.respond v).hold = s.hold := rfl
@[simp] theorem State.respond_fibmem (s : State) (v : Operand) : (s.respond v).fibmem = s.fibmem := rfl
@[simp] theorem State.respond_fibvalid (s : State) (v : Operand) : (s.respond v).fibvalid = s.fibvalid := rfl
@[simp] theorem State.respond_framevalid (s : State) (v : Operand) : (s.respond v).framevalid = s.framevalid := rfl
@[simp] theorem State.respond_subch (s : State) (v : Operand) : (s.respond v).subch = s.subch := rfl
@[simp] theorem State.respond_msc (s : State) (v : Operand) : (s.respond v).msc = s.msc := rfl
@[simp] theorem State.respond_inbox (s : State) (v : Operand) : (s.respond v).inbox = s.inbox := rfl
@[simp] theorem State.respond_rsp (s : State) (v : Operand) : (s.respond v).rsp = some ⟨.ok, v⟩ := rfl

/-! ### `raise` -/

@[simp] theorem State.raise_cfg (s : State) (st : Status) : (s.raise st).cfg = s.cfg := rfl
@[simp] theorem State.raise_bit (s : State) (st : Status) : (s.raise st).bit = s.bit := rfl
@[simp] theorem State.raise_bbwr (s : State) (st : Status) : (s.raise st).bbwr = s.bbwr := rfl
@[simp] theorem State.raise_bbrd (s : State) (st : Status) : (s.raise st).bbrd = s.bbrd := rfl
@[simp] theorem State.raise_view (s : State) (st : Status) : (s.raise st).view = s.view := rfl
@[simp] theorem State.raise_fibcount (s : State) (st : Status) : (s.raise st).fibcount = s.fibcount := rfl
@[simp] theorem State.raise_fstate (s : State) (st : Status) : (s.raise st).fstate = s.fstate := rfl
@[simp] theorem State.raise_fibn (s : State) (st : Status) : (s.raise st).fibn = s.fibn := rfl
@[simp] theorem State.raise_hold (s : State) (st : Status) : (s.raise st).hold = s.hold := rfl
@[simp] theorem State.raise_fibmem (s : State) (st : Status) : (s.raise st).fibmem = s.fibmem := rfl
@[simp] theorem State.raise_fibvalid (s : State) (st : Status) : (s.raise st).fibvalid = s.fibvalid := rfl
@[simp] theorem State.raise_framevalid (s : State) (st : Status) : (s.raise st).framevalid = s.framevalid := rfl
@[simp] theorem State.raise_subch (s : State) (st : Status) : (s.raise st).subch = s.subch := rfl
@[simp] theorem State.raise_msc (s : State) (st : Status) : (s.raise st).msc = s.msc := rfl
@[simp] theorem State.raise_inbox (s : State) (st : Status) : (s.raise st).inbox = s.inbox := rfl
@[simp] theorem State.raise_rsp (s : State) (st : Status) : (s.raise st).rsp = some ⟨st, 0⟩ := rfl

/-! ### `advance` -/

@[simp] theorem State.advance_cfg (s : State) (n : Nat) (t : Target) : (s.advance n t).cfg = s.cfg := by
  cases t <;> rfl
@[simp] theorem State.advance_bit (s : State) (n : Nat) (t : Target) : (s.advance n t).bit = s.bit := by
  cases t <;> rfl
@[simp] theorem State.advance_bbwr (s : State) (n : Nat) (t : Target) : (s.advance n t).bbwr = s.bbwr := by
  cases t <;> rfl
@[simp] theorem State.advance_fibcount (s : State) (n : Nat) (t : Target) : (s.advance n t).fibcount = s.fibcount := by
  cases t <;> rfl
@[simp] theorem State.advance_fstate (s : State) (n : Nat) (t : Target) : (s.advance n t).fstate = s.fstate := by
  cases t <;> rfl
@[simp] theorem State.advance_fibn (s : State) (n : Nat) (t : Target) : (s.advance n t).fibn = s.fibn := by
  cases t <;> rfl
@[simp] theorem State.advance_hold (s : State) (n : Nat) (t : Target) : (s.advance n t).hold = s.hold := by
  cases t <;> rfl
@[simp] theorem State.advance_fibmem (s : State) (n : Nat) (t : Target) : (s.advance n t).fibmem = s.fibmem := by
  cases t <;> rfl
@[simp] theorem State.advance_fibvalid (s : State) (n : Nat) (t : Target) : (s.advance n t).fibvalid = s.fibvalid := by
  cases t <;> rfl
@[simp] theorem State.advance_framevalid (s : State) (n : Nat) (t : Target) : (s.advance n t).framevalid = s.framevalid := by
  cases t <;> rfl
@[simp] theorem State.advance_subch (s : State) (n : Nat) (t : Target) : (s.advance n t).subch = s.subch := by
  cases t <;> rfl
@[simp] theorem State.advance_msc (s : State) (n : Nat) (t : Target) : (s.advance n t).msc = s.msc := by
  cases t <;> rfl
@[simp] theorem State.advance_inbox (s : State) (n : Nat) (t : Target) : (s.advance n t).inbox = s.inbox := by
  cases t <;> rfl
@[simp] theorem State.advance_rsp (s : State) (n : Nat) (t : Target) : (s.advance n t).rsp = s.rsp := by
  cases t <;> rfl
@[simp] theorem State.advance_buffer_bbrd (s : State) (n : Nat) : (s.advance n .buffer).bbrd = s.bbrd + n := rfl
@[simp] theorem State.advance_buffer_view (s : State) (n : Nat) : (s.advance n .buffer).view = s.view := rfl
@[simp] theorem State.advance_view_bbrd (s : State) (n : Nat) : (s.advance n .view).bbrd = s.bbrd := rfl
@[simp] theorem State.advance_view_view (s : State) (n : Nat) :
    (s.advance n .view).view = { s.view with rd := s.view.rd + n } := rfl

/-! ### `appendFib` -/

@[simp] theorem State.appendFib_cfg (s : State) : (s.appendFib).cfg = s.cfg := rfl
@[simp] theorem State.appendFib_bit (s : State) : (s.appendFib).bit = s.bit := rfl
@[simp] theorem State.appendFib_bbwr (s : State) : (s.appendFib).bbwr = s.bbwr := rfl
@[simp] theorem State.appendFib_bbrd (s : State) : (s.appendFib).bbrd = s.bbrd := rfl
@[simp] theorem State.appendFib_view (s : State) : (s.appendFib).view = s.view := rfl
@[simp] theorem State.appendFib_fibcount (s : State) : (s.appendFib).fibcount = s.fibcount := rfl
@[simp] theorem State.appendFib_fstate (s : State) : (s.appendFib).fstate = 
    if s.fibn + 1 < s.fibcount then .awaitingFib else .frameComplete := rfl
@[simp] theorem State.appendFib_fibn (s : State) : (s.appendFib).fibn = s.fibn + 1 := rfl
@[simp] theorem State.appendFib_hold (s : State) : (s.appendFib).hold = s.hold := rfl
@[simp] theorem State.appendFib_fibmem (s : State) : (s.appendFib).fibmem = s.fibmem.setIfInBounds s.fibn s.hold := rfl
@[simp] theorem State.appendFib_fibvalid (s : State) : (s.appendFib).fibvalid = 
    s.fibvalid.setIfInBounds s.fibn (fibValid s.cfg.crcXorout s.hold) := rfl
@[simp] theorem State.appendFib_framevalid (s : State) : (s.appendFib).framevalid = 
    (s.framevalid && fibValid s.cfg.crcXorout s.hold) := rfl
@[simp] theorem State.appendFib_subch (s : State) : (s.appendFib).subch = s.subch := rfl
@[simp] theorem State.appendFib_msc (s : State) : (s.appendFib).msc = s.msc := rfl
@[simp] theorem State.appendFib_inbox (s : State) : (s.appendFib).inbox = s.inbox := rfl
@[simp] theorem State.appendFib_rsp (s : State) : (s.appendFib).rsp = s.rsp := rfl

/-! ### `sendFirst` -/

@[simp] theorem State.sendFirst_cfg (s : State) (t : Transaction) : (s.sendFirst t).cfg = s.cfg := rfl
@[simp] theorem State.sendFirst_bit (s : State) (t : Transaction) : (s.sendFirst t).bit = s.bit := rfl
@[simp] theorem State.sendFirst_bbwr (s : State) (t : Transaction) : (s.sendFirst t).bbwr = s.bbwr := rfl
@[simp] theorem State.sendFirst_bbrd (s : State) (t : Transaction) : (s.sendFirst t).bbrd = s.bbrd := rfl
@[simp] theorem State.sendFirst_view (s : State) (t : Transaction) : (s.sendFirst t).view = s.view := rfl
@[simp] theorem State.sendFirst_fibcount (s : State) (t : Transaction) : (s.sendFirst t).fibcount = s.fibcount := rfl
@[simp] theorem State.sendFirst_fstate (s : State) (t : Transaction) : (s.sendFirst t).fstate = s.fstate := rfl
@[simp] theorem State.sendFirst_fibn (s : State) (t : Transaction) : (s.sendFirst t).fibn = s.fibn := rfl
@[simp] theorem State.sendFirst_hold (s : State) (t : Transaction) : (s.sendFirst t).hold = s.hold := rfl
@[simp] theorem State.sendFirst_fibmem (s : State) (t : Transaction) : (s.sendFirst t).fibmem = s.fibmem := rfl
@[simp] theorem State.sendFirst_fibvalid (s : State) (t : Transaction) : (s.sendFirst t).fibvalid = s.fibvalid := rfl
@[simp] theorem State.sendFirst_framevalid (s : State) (t : Transaction) : (s.sendFirst t).framevalid = s.framevalid := rfl
@[simp] theorem State.sendFirst_subch (s : State) (t : Transaction) : (s.sendFirst t).subch = s.subch := rfl
@[simp] theorem State.sendFirst_msc (s : State) (t : Transaction) : (s.sendFirst t).msc = s.msc := rfl
@[simp] theorem State.sendFirst_inbox (s : State) (t : Transaction) : (s.sendFirst t).inbox = .command t :: s.inbox := rfl
@[simp] theorem State.sendFirst_rsp (s : State) (t : Transaction) : (s.sendFirst t).rsp = s.rsp := rfl

/-! ### `resetWith` -/

@[simp] theorem State.resetWith_cfg (p : Params) : (State.resetWith p).cfg = p := rfl
@[simp] theorem State.resetWith_bit (p : Params) : (State.resetWith p).bit = [] := rfl
@[simp] theorem State.resetWith_bbwr (p : Params) : (State.resetWith p).bbwr = 0 := rfl
@[simp] theorem State.resetWith_bbrd (p : Params) : (State.resetWith p).bbrd = 0 := rfl
@[simp] theorem State.resetWith_view (p : Params) : (State.resetWith p).view = View.none := rfl
@[simp] theorem State.resetWith_fibcount (p : Params) : (State.resetWith p).fibcount = 0 := rfl
@[simp] theorem State.resetWith_fstate (p : Params) : (State.resetWith p).fstate = .awaitingFib := rfl
@[simp] theorem State.resetWith_fibn (p : Params) : (State.resetWith p).fibn = 0 := rfl
@[simp] theorem State.resetWith_hold (p : Params) : (State.resetWith p).hold = Vector.replicate 32 0 := rfl
@[simp] theorem State.resetWith_fibmem (p : Params) : (State.resetWith p).fibmem = 
    Vector.replicate 4 (Vector.replicate 32 0) := rfl
@[simp] theorem State.resetWith_fibvalid (p : Params) : (State.resetWith p).fibvalid = Vector.replicate 4 false := rfl
@[simp] theorem State.resetWith_framevalid (p : Params) : (State.resetWith p).framevalid = true := rfl
@[simp] theorem State.resetWith_subch (p : Params) : (State.resetWith p).subch = [] := rfl
@[simp] theorem State.resetWith_msc (p : Params) : (State.resetWith p).msc = MscRecord.empty := rfl
@[simp] theorem State.resetWith_inbox (p : Params) : (State.resetWith p).inbox = [] := rfl
@[simp] theorem State.resetWith_rsp (p : Params) : (State.resetWith p).rsp = none := rfl

/-! ### `resetEvent` -/

@[simp] theorem State.resetEvent_cfg (s : State) : (s.resetEvent).cfg = s.cfg := rfl
@[simp] theorem State.resetEvent_bit (s : State) : (s.resetEvent).bit = [] := rfl
@[simp] theorem State.resetEvent_bbwr (s : State) : (s.resetEvent).bbwr = 0 := rfl
@[simp] theorem State.resetEvent_bbrd (s : State) : (s.resetEvent).bbrd = 0 := rfl
@[simp] theorem State.resetEvent_view (s : State) : (s.resetEvent).view = View.none := rfl
@[simp] theorem State.resetEvent_fibcount (s : State) : (s.resetEvent).fibcount = 0 := rfl
@[simp] theorem State.resetEvent_fstate (s : State) : (s.resetEvent).fstate = .awaitingFib := rfl
@[simp] theorem State.resetEvent_fibn (s : State) : (s.resetEvent).fibn = 0 := rfl
@[simp] theorem State.resetEvent_hold (s : State) : (s.resetEvent).hold = Vector.replicate 32 0 := rfl
@[simp] theorem State.resetEvent_fibmem (s : State) : (s.resetEvent).fibmem = 
    Vector.replicate 4 (Vector.replicate 32 0) := rfl
@[simp] theorem State.resetEvent_fibvalid (s : State) : (s.resetEvent).fibvalid = Vector.replicate 4 false := rfl
@[simp] theorem State.resetEvent_framevalid (s : State) : (s.resetEvent).framevalid = true := rfl
@[simp] theorem State.resetEvent_subch (s : State) : (s.resetEvent).subch = [] := rfl
@[simp] theorem State.resetEvent_msc (s : State) : (s.resetEvent).msc = MscRecord.empty := rfl
@[simp] theorem State.resetEvent_inbox (s : State) : (s.resetEvent).inbox = s.inbox := rfl
@[simp] theorem State.resetEvent_rsp (s : State) : (s.resetEvent).rsp = none := rfl

end Sys2Proof.Machine
end

