-- ==== Sys2Proof/Laws/Ops.lean ====
section
/-! SUPPORT. What each shared operation can answer, said once; then, for each command, the next states it can give:
an error that changes nothing, or its effect. Later proofs cite these and do not unfold the meanings. -/

namespace Sys2Proof.Machine

/-! ### The shared operations -/

theorem reading_eq_next {s t : State} {addr n : Nat} {k : Result} (h : s.reading addr n k = .next t) :
    addr + n ≤ s.bbwr ∧ k = .next t := by
  unfold State.reading at h
  split_ifs at h with hr
  exact ⟨hr, h⟩

theorem reading_of_le {s : State} {addr n : Nat} (k : Result) (h : addr + n ≤ s.bbwr) : s.reading addr n k = k := by
  simp [State.reading, h]

@[simp] theorem window_buffer (s : State) : s.window .buffer = some ⟨0, s.bbrd, s.bbwr⟩ := rfl

theorem window_view_of_valid {s : State} (h : s.view.valid = true) :
    s.window .view = some ⟨s.view.base, s.view.rd, s.view.len⟩ := by
  simp [State.window, h]

theorem window_view_of_invalid {s : State} (h : s.view.valid = false) : s.window .view = none := by
  simp [State.window, h]

theorem window_eq_none {s : State} {target : Target} (h : s.window target = none) :
    target = .view ∧ s.view.valid = false := by
  cases target
  · simp at h
  · by_cases hv : s.view.valid = true
    · simp [window_view_of_valid hv] at h
    · exact ⟨rfl, by simpa using hv⟩

/-- BBREAD and BBPEEK share this: an error, a read outside the written bounds, or the field and what follows. -/
theorem fieldRead_cases (target : Target) (width : BitVec 8) (s : State) (after : Operand → Result) :
    (legalWidth width = false ∧ fieldRead target width s after = .next (s.raise .illegalOperand))
    ∨ (legalWidth width = true ∧ s.window target = none ∧
        fieldRead target width s after = .next (s.raise .illegalState))
    ∨ ∃ win, legalWidth width = true ∧ s.window target = some win ∧
        ((win.limit < win.rd + width.toNat ∧ fieldRead target width s after = .next (s.raise .underflow))
        ∨ (win.rd + width.toNat ≤ win.limit ∧ s.bbwr < win.base + win.rd + width.toNat ∧
            fieldRead target width s after = .fault (.unwrittenBits (win.base + win.rd) width.toNat))
        ∨ (win.rd + width.toNat ≤ win.limit ∧ win.base + win.rd + width.toNat ≤ s.bbwr ∧
            ∃ v, IsField s.bit (win.base + win.rd) width.toNat v ∧ fieldRead target width s after = after v)) := by
  by_cases hw : legalWidth width = true
  · have hle : width.toNat ≤ 64 := by
      simp only [legalWidth, Bool.and_eq_true, decide_eq_true_eq] at hw
      exact hw.2
    rcases hwin : s.window target with _ | win
    · exact .inr (.inl ⟨hw, rfl, by simp [fieldRead, hw, hwin]⟩)
    · refine .inr (.inr ⟨win, hw, rfl, ?_⟩)
      by_cases hu : win.rd + width.toNat ≤ win.limit
      · by_cases hr : win.base + win.rd + width.toNat ≤ s.bbwr
        · exact .inr (.inr ⟨hu, hr, _, Memory.readBits_isField s.bit (win.base + win.rd) width.toNat hle,
            by simp [fieldRead, hw, hwin, hu, State.reading, hr]⟩)
        · exact .inr (.inl ⟨hu, not_le.1 hr, by simp [fieldRead, hw, hwin, hu, State.reading, hr]⟩)
      · exact .inl ⟨not_le.1 hu, by simp [fieldRead, hw, hwin, hu]⟩
  · exact .inl ⟨by simpa using hw, by simp [fieldRead, hw]⟩

theorem rangeWritten_iff (s : State) (start length : Operand) :
    s.rangeWritten start length = true ↔ start.toNat + length.toNat ≤ s.bbwr := by
  simp [State.rangeWritten]

/-- CRCCOMP and CRCVERIFY share this: an error, or the result of the range's CRC. -/
theorem crcCommand_cases (start length : Operand) (s : State) (result : Crc → Operand) :
    (length.toNat % 8 ≠ 0 ∧ crcCommand start length s result = .next (s.raise .illegalOperand))
    ∨ (length.toNat % 8 = 0 ∧ s.bbwr < start.toNat + length.toNat ∧
        crcCommand start length s result = .next (s.raise .range))
    ∨ (length.toNat % 8 = 0 ∧ start.toNat + length.toNat ≤ s.bbwr ∧
        crcCommand start length s result = .next (s.respond (result
          (crc16 s.cfg.crcXorout (Memory.bytesAt s.bit start.toNat (length.toNat / 8)))))) := by
  by_cases hb : length.toNat % 8 = 0
  · by_cases hr : start.toNat + length.toNat ≤ s.bbwr
    · exact .inr (.inr ⟨hb, hr, by simp [crcCommand, wholeBytes, hb, State.rangeWritten, hr, State.reading]⟩)
    · exact .inr (.inl ⟨hb, not_le.1 hr, by simp [crcCommand, wholeBytes, hb, State.rangeWritten, hr]⟩)
  · exact .inl ⟨hb, by simp [crcCommand, wholeBytes, hb]⟩

/-- MSCPARSE's verdict: no CRC, a CRC field cut short, a read outside the written bounds, or the comparison. -/
theorem mscVerdict_cases (s : State) (row : SubchRow) (after : Bool → Result) :
    (row.hc = false ∧ mscVerdict s row after = after true)
    ∨ (row.hc = true ∧ s.view.len < row.plen.toNat + 16 ∧ mscVerdict s row after = after false)
    ∨ (row.hc = true ∧ row.plen.toNat + 16 ≤ s.view.len ∧ s.bbwr < s.view.base + (row.plen.toNat + 16) ∧
        mscVerdict s row after = .fault (.unwrittenBits s.view.base (row.plen.toNat + 16)))
    ∨ (row.hc = true ∧ row.plen.toNat + 16 ≤ s.view.len ∧ s.view.base + (row.plen.toNat + 16) ≤ s.bbwr ∧
        mscVerdict s row after
          = after (mscCrcMatches s.cfg.crcXorout s.bit s.view.base row.plen.toNat)) := by
  by_cases hc : row.hc = true
  · by_cases hl : s.view.len < row.plen.toNat + 16
    · exact .inr (.inl ⟨hc, hl, by simp [mscVerdict, hc, hl]⟩)
    · by_cases hr : s.view.base + (row.plen.toNat + 16) ≤ s.bbwr
      · exact .inr (.inr (.inr ⟨hc, not_lt.1 hl, hr, by simp [mscVerdict, hc, hl, State.reading, hr]⟩))
      · exact .inr (.inr (.inl ⟨hc, not_lt.1 hl, not_le.1 hr, by simp [mscVerdict, hc, hl, State.reading, hr]⟩))
  · exact .inl ⟨by simpa using hc, by simp [mscVerdict, hc]⟩

/-! ### The next states of each command -/

/-- The command failed: an error status and no other change (60_exceptions.md R226). -/
def Failed (s t : State) : Prop := ∃ st, st ≠ Status.ok ∧ t = s.raise st

variable {s t : State}

theorem execRdsr_next {n : BitVec 8} (h : execRdsr n s = .next t) :
    Failed s t ∨ (legalSr n = true ∧ t = s.respond (s.statusRegister n.toNat)) := by
  unfold execRdsr at h
  split_ifs at h with h1 <;> injection h with h <;> subst h
  · exact .inr ⟨h1, rfl⟩
  · exact .inl ⟨_, by decide, rfl⟩

theorem execBbwrite_next {w : BitVec 8} {v : Operand} (h : execBbwrite w v s = .next t) :
    Failed s t ∨ (legalWidth w = true ∧ s.bbwr + w.toNat ≤ s.cfg.capBits ∧
      t = { s with bit := Memory.writeBits s.bit s.bbwr w.toNat v.toNat, bbwr := s.bbwr + w.toNat }.respond 0) := by
  unfold execBbwrite at h
  split_ifs at h with h1 h2 <;> injection h with h <;> subst h
  · exact .inr ⟨h1, h2, rfl⟩
  · exact .inl ⟨_, by decide, rfl⟩
  · exact .inl ⟨_, by decide, rfl⟩

theorem execBbread_next {target : Target} {w : BitVec 8} (h : execBbread target w s = .next t) :
    Failed s t ∨ ∃ win v, s.window target = some win ∧ win.rd + w.toNat ≤ win.limit ∧
      win.base + win.rd + w.toNat ≤ s.bbwr ∧ IsField s.bit (win.base + win.rd) w.toNat v ∧
      t = (s.advance w.toNat target).respond v := by
  rcases fieldRead_cases target w s (fun v => .next ((s.advance w.toNat target).respond v)) with
    ⟨-, e⟩ | ⟨-, -, e⟩ | ⟨win, -, hw, ⟨-, e⟩ | ⟨-, -, e⟩ | ⟨hl, hr, v, hv, e⟩⟩ <;>
    · rw [execBbread, e] at h
      first
        | (cases h; done)
        | (injection h with h; exact .inl ⟨_, by decide, h.symm⟩)
        | (injection h with h; exact .inr ⟨win, v, hw, hl, hr, hv, h.symm⟩)

theorem execBbpeek_next {target : Target} {w : BitVec 8} (h : execBbpeek target w s = .next t) :
    Failed s t ∨ ∃ win v, s.window target = some win ∧ win.rd + w.toNat ≤ win.limit ∧
      win.base + win.rd + w.toNat ≤ s.bbwr ∧ IsField s.bit (win.base + win.rd) w.toNat v ∧ t = s.respond v := by
  rcases fieldRead_cases target w s (fun v => .next (s.respond v)) with
    ⟨-, e⟩ | ⟨-, -, e⟩ | ⟨win, -, hw, ⟨-, e⟩ | ⟨-, -, e⟩ | ⟨hl, hr, v, hv, e⟩⟩ <;>
    · rw [execBbpeek, e] at h
      first
        | (cases h; done)
        | (injection h with h; exact .inl ⟨_, by decide, h.symm⟩)
        | (injection h with h; exact .inr ⟨win, v, hw, hl, hr, hv, h.symm⟩)

theorem execBbrem_next {target : Target} (h : execBbrem target s = .next t) :
    Failed s t ∨ ∃ win, s.window target = some win ∧ t = s.respond (BitVec.ofNat 64 (win.limit - win.rd)) := by
  unfold execBbrem at h
  split at h <;> injection h with h <;> subst h
  · exact .inl ⟨_, by decide, rfl⟩
  · exact .inr ⟨_, ‹_›, rfl⟩

theorem execBbreset_next (h : execBbreset s = .next t) :
    t = { s with bbwr := 0, bbrd := 0, view := View.none, msc := MscRecord.empty }.respond 0 := by
  injection h with h
  exact h.symm

theorem execBbslice_next {a l : Operand} (h : execBbslice a l s = .next t) :
    Failed s t ∨ (a.toNat + l.toNat ≤ s.bbwr ∧ t = { s with view := ⟨true, a.toNat, l.toNat, 0⟩ }.respond 0) := by
  unfold execBbslice at h
  split_ifs at h with h1 <;> injection h with h <;> subst h
  · exact .inr ⟨(rangeWritten_iff s a l).1 h1, rfl⟩
  · exact .inl ⟨_, by decide, rfl⟩

theorem crcCommand_next {a l : Operand} {f : Crc → Operand} (h : crcCommand a l s f = .next t) :
    Failed s t ∨ (l.toNat % 8 = 0 ∧ a.toNat + l.toNat ≤ s.bbwr ∧
      t = s.respond (f (crc16 s.cfg.crcXorout (Memory.bytesAt s.bit a.toNat (l.toNat / 8))))) := by
  rcases crcCommand_cases a l s f with ⟨-, e⟩ | ⟨-, -, e⟩ | ⟨hb, hr, e⟩ <;>
    · rw [e] at h
      injection h with h
      subst h
      first
        | exact .inl ⟨_, by decide, rfl⟩
        | exact .inr ⟨hb, hr, rfl⟩

theorem execFiccfg_next {n : BitVec 8} (h : execFiccfg n s = .next t) :
    Failed s t ∨ ((n.toNat = 3 ∨ n.toNat = 4) ∧ s.fstate = .awaitingFib ∧ s.fibn = 0 ∧
      t = { s with fibcount := n.toNat }.respond 0) := by
  unfold execFiccfg at h
  split_ifs at h with h1 h2 <;> injection h with h <;> subst h
  · exact .inr ⟨by simpa [legalFibCount] using h1, h2.1, h2.2, rfl⟩
  · exact .inl ⟨_, by decide, rfl⟩
  · exact .inl ⟨_, by decide, rfl⟩

theorem execFicnew_next (h : execFicnew s = .next t) :
    t = { s with
      fstate := .awaitingFib, fibn := 0, fibvalid := Vector.replicate 4 false, framevalid := true }.respond 0 := by
  injection h with h
  exact h.symm

theorem execFiblatch_next (h : execFiblatch s = .next t) :
    Failed s t ∨ (s.fibcount ≠ 0 ∧ s.fstate = .awaitingFib ∧ s.bbrd + 256 ≤ s.bbwr ∧
      t = { s with
        hold := Memory.fibAt s.bit s.bbrd, bbrd := s.bbrd + 256, fstate := .fibComplete }.respond 0) := by
  unfold execFiblatch at h
  split_ifs at h with h1 h2 h3
  · injection h with h
    subst h
    exact .inl ⟨_, by decide, rfl⟩
  · injection h with h
    subst h
    exact .inl ⟨_, by decide, rfl⟩
  · injection h with h
    subst h
    exact .inl ⟨_, by decide, rfl⟩
  · obtain ⟨hr, h⟩ := reading_eq_next h
    injection h with h
    subst h
    exact .inr ⟨h1, by simpa using h2, hr, rfl⟩

theorem execFibcommit_next (h : execFibcommit s = .next t) :
    Failed s t ∨ (s.fstate = .fibComplete ∧ s.fibn < 4 ∧
      t = s.appendFib.respond (boolResult (fibValid s.cfg.crcXorout s.hold))) := by
  unfold execFibcommit at h
  split_ifs at h with h1 h2 <;> injection h with h <;> subst h
  · exact .inl ⟨_, by decide, rfl⟩
  · exact .inr ⟨by simpa using h1, h2, rfl⟩

theorem execFibrd_next {idx : BitVec 2} {off : BitVec 5} (h : execFibrd idx off s = .next t) :
    Failed s t ∨ (idx.toNat < s.fibn ∧ t = s.respond ((s.fibmem[idx.toNat][off.toNat]).setWidth 64)) := by
  unfold execFibrd at h
  split_ifs at h with h1 <;> injection h with h <;> subst h
  · exact .inl ⟨_, by decide, rfl⟩
  · exact .inr ⟨not_le.1 h1, rfl⟩

theorem execMsccfg_next {hc : Bool} {id : BitVec 8} {plen : Operand} (h : execMsccfg hc id plen s = .next t) :
    Failed s t ∨ (id.toNat < s.cfg.nsubch ∧ (hc = true → plen.toNat % 8 = 0) ∧
      t = { s with subch := subchWrite s.subch id.toNat ⟨true, plen, hc⟩ }.respond 0) := by
  unfold execMsccfg at h
  split_ifs at h with h1 h2 <;> injection h with h <;> subst h
  · exact .inl ⟨_, by decide, rfl⟩
  · exact .inr ⟨by simpa [legalId] using h1, by simpa [wholeBytes] using h2, rfl⟩
  · exact .inl ⟨_, by decide, rfl⟩

theorem mscParseRow_next {id : BitVec 8} {row : SubchRow} (h : mscParseRow id row s = .next t) :
    Failed s t ∨ ∃ v, row.cfgd = true ∧ s.view.valid = true ∧ row.plen.toNat ≤ s.view.len ∧
      t = { s with msc := ⟨true, id, s.view.base, row.plen.toNat, row.hc, v⟩ }.respond (boolResult v) := by
  unfold mscParseRow at h
  split_ifs at h with h2 h3 h4
  · injection h with h
    exact .inl ⟨_, by decide, h.symm⟩
  · injection h with h
    exact .inl ⟨_, by decide, h.symm⟩
  · injection h with h
    exact .inl ⟨_, by decide, h.symm⟩
  · refine .inr ?_
    rcases mscVerdict_cases s row fun v =>
      .next ({ s with msc := ⟨true, id, s.view.base, row.plen.toNat, row.hc, v⟩ }.respond (boolResult v)) with
      ⟨-, e⟩ | ⟨-, -, e⟩ | ⟨-, -, -, e⟩ | ⟨-, -, -, e⟩ <;>
      · rw [e] at h
        first
          | (cases h; done)
          | (injection h with h; exact ⟨_, by simpa using h2, by simpa using h3, not_lt.1 h4, h.symm⟩)

theorem execMscparse_next {id : BitVec 8} (h : execMscparse id s = .next t) :
    Failed s t ∨ ∃ v, (subchRead s.subch id.toNat).cfgd = true ∧ s.view.valid = true ∧
      (subchRead s.subch id.toNat).plen.toNat ≤ s.view.len ∧
      t = { s with
        msc := ⟨true, id, s.view.base, (subchRead s.subch id.toNat).plen.toNat, (subchRead s.subch id.toNat).hc, v⟩
        }.respond (boolResult v) := by
  unfold execMscparse at h
  split_ifs at h with h1
  · exact mscParseRow_next h
  · injection h with h
    exact .inl ⟨_, by decide, h.symm⟩

end Sys2Proof.Machine
end

