-- ==== Sys2Proof/Laws/PerInstr.lean ====
section
/-! SUPPORT. For every command: the encoder's word, written from the formats (30_encoding.md R81), has the fixed bits
its row of the opcode map asks for (R83, R84). -/

namespace Sys2Proof.Laws.RowMatch

/-- The row's `match` and `mask` (30_encoding.md R84), written out for each command. -/
def row : Instr → Word × Word
  | .rdsr _ => (0x01000000, 0xFFFFFF00)
  | .bbwrite _ _ => (0x10000000, 0xFFFFFF00)
  | .bbread _ _ => (0x11000000, 0xFF7FFF00)
  | .bbpeek _ _ => (0x12000000, 0xFF7FFF00)
  | .bbrem _ => (0x13000000, 0xFF7FFFFF)
  | .bbreset => (0x14000000, 0xFFFFFFFF)
  | .bbslice _ _ => (0x15000000, 0xFFFFFFFF)
  | .crccomp _ _ => (0x20000000, 0xFFFFFFFF)
  | .crcverify _ _ _ => (0x21000000, 0xFFFF0000)
  | .ficcfg _ => (0x30000000, 0xFFFFFF00)
  | .ficnew => (0x31000000, 0xFFFFFFFF)
  | .fiblatch => (0x32000000, 0xFFFFFFFF)
  | .fibcommit => (0x33000000, 0xFFFFFFFF)
  | .fibrd _ _ => (0x34000000, 0xFFFFFCE0)
  | .msccfg _ _ _ => (0x38000000, 0xFFFFFE00)
  | .mscparse _ => (0x39000000, 0xFFFFFF00)

/-- `(cw & mask) = match` for the word the encoder writes. -/
def Statement (i : Instr) : Prop := (encode i).cw &&& (row i).2 = (row i).1

/-! ### The fixed bits of each format -/

theorem formatT_mask (opc : BitVec 8) (t : Target) : formatT opc t &&& 0xFF7FFFFF#32 = opc ++ 0#24 := by
  unfold formatT targetBit
  refine BitVec.eq_of_getLsbD_eq fun j hj => ?_
  simp only [BitVec.getLsbD_and, BitVec.getLsbD_append]
  cases t <;> interval_cases j <;> simp

theorem formatW_mask (opc : BitVec 8) (t : Target) (w : BitVec 8) :
    formatW opc t w &&& 0xFF7FFF00#32 = opc ++ 0#24 := by
  unfold formatW targetBit
  refine BitVec.eq_of_getLsbD_eq fun j hj => ?_
  simp only [BitVec.getLsbD_and, BitVec.getLsbD_append]
  cases t <;> interval_cases j <;> simp

theorem formatW_buffer_mask (opc w : BitVec 8) : formatW opc .buffer w &&& 0xFFFFFF00#32 = opc ++ 0#24 := by
  unfold formatW targetBit
  refine BitVec.eq_of_getLsbD_eq fun j hj => ?_
  simp only [BitVec.getLsbD_and, BitVec.getLsbD_append]
  interval_cases j <;> simp

theorem formatV_mask (opc : BitVec 8) (exp : Crc) : formatV opc exp &&& 0xFFFF0000#32 = opc ++ 0#24 := by
  unfold formatV
  refine BitVec.eq_of_getLsbD_eq fun j hj => ?_
  simp only [BitVec.getLsbD_and, BitVec.getLsbD_append]
  interval_cases j <;> simp

theorem formatI_mask (opc imm : BitVec 8) : formatI opc imm &&& 0xFFFFFF00#32 = opc ++ 0#24 := by
  unfold formatI
  refine BitVec.eq_of_getLsbD_eq fun j hj => ?_
  simp only [BitVec.getLsbD_and, BitVec.getLsbD_append]
  interval_cases j <;> simp

theorem formatC_mask (opc : BitVec 8) (hc : Bool) (id : BitVec 8) :
    formatC opc hc id &&& 0xFFFFFE00#32 = opc ++ 0#24 := by
  unfold formatC
  refine BitVec.eq_of_getLsbD_eq fun j hj => ?_
  simp only [BitVec.getLsbD_and, BitVec.getLsbD_append]
  interval_cases j <;> simp

theorem formatF_mask (opc : BitVec 8) (idx : BitVec 2) (off : BitVec 5) :
    formatF opc idx off &&& 0xFFFFFCE0#32 = opc ++ 0#24 := by
  unfold formatF
  refine BitVec.eq_of_getLsbD_eq fun j hj => ?_
  simp only [BitVec.getLsbD_and, BitVec.getLsbD_append]
  interval_cases j <;> simp

/-! ### One lemma per command -/

theorem rdsr (sr : BitVec 8) : Statement (.rdsr sr) := formatI_mask 0x01#8 sr

theorem bbwrite (width : BitVec 8) (value : Operand) : Statement (.bbwrite width value) :=
  formatW_buffer_mask 0x10#8 width

theorem bbread (target : Target) (width : BitVec 8) : Statement (.bbread target width) :=
  formatW_mask 0x11#8 target width

theorem bbpeek (target : Target) (width : BitVec 8) : Statement (.bbpeek target width) :=
  formatW_mask 0x12#8 target width

theorem bbrem (target : Target) : Statement (.bbrem target) := formatT_mask 0x13#8 target

theorem bbreset : Statement .bbreset := by
  unfold Statement
  decide

theorem bbslice (start length : Operand) : Statement (.bbslice start length) := by
  show formatZ 0x15#8 &&& 0xFFFFFFFF#32 = 0x15000000#32
  decide

theorem crccomp (start length : Operand) : Statement (.crccomp start length) := by
  show formatZ 0x20#8 &&& 0xFFFFFFFF#32 = 0x20000000#32
  decide

theorem crcverify (exp : Crc) (start length : Operand) : Statement (.crcverify exp start length) :=
  formatV_mask 0x21#8 exp

theorem ficcfg (n : BitVec 8) : Statement (.ficcfg n) := formatI_mask 0x30#8 n

theorem ficnew : Statement .ficnew := by
  unfold Statement
  decide

theorem fiblatch : Statement .fiblatch := by
  unfold Statement
  decide

theorem fibcommit : Statement .fibcommit := by
  unfold Statement
  decide

theorem fibrd (idx : BitVec 2) (off : BitVec 5) : Statement (.fibrd idx off) := formatF_mask 0x34#8 idx off

theorem msccfg (hc : Bool) (id : BitVec 8) (plen : Operand) : Statement (.msccfg hc id plen) :=
  formatC_mask 0x38#8 hc id

theorem mscparse (id : BitVec 8) : Statement (.mscparse id) := formatI_mask 0x39#8 id

end Sys2Proof.Laws.RowMatch
end

