-- ==== Sys2Proof/Tests/Slice0.lean ====
section
/-! SUPPORT. Small tests, expected values from 95_test_vectors.md unless a comment says otherwise, and for each
statement with hypotheses or several clauses a concrete state that meets them. -/

namespace Sys2Proof.Tests

open Sys2Proof.Machine

/-! ### Helpers -/

/-- The reset state of a block of `cap` bytes. -/
def blk (cap : Nat) : State := State.resetWith ⟨cap, 64, 0⟩

/-- Storage bytes from byte 0 on, in canonical form. -/
def cells (bytes : List Nat) : Memory :=
  (bytes.zipIdx.filter fun c => c.1 ≠ 0).map fun c => (c.2, BitVec.ofNat 8 c.1)

/-- A block of `cap` bytes that holds `bytes`, with `wr` bits written and `rd` of them read. -/
def holding (cap : Nat) (bytes : List Nat) (wr rd : Nat) : State := { blk cap with bit := cells bytes, bbwr := wr, bbrd := rd }

/-- The state a result carries. -/
def after : Result → Option State
  | .next t => some t
  | _ => none

/-- The response a result carries. -/
def reply (r : Result) : Option Response := (after r).bind State.rsp

/-- `SR[n]` after a result. -/
def srAfter (n : Nat) (r : Result) : Option Nat := (after r).map fun t => t.statusValue n

/-- The fault of a result. -/
def faultOf : Result → Option Fault
  | .fault f => some f
  | _ => none

/-- What the decoder gives for a word. -/
def decoded (cw : Word) : Option Instr :=
  match decode ⟨cw, 0, 0⟩ with
  | .ok i => some i
  | .error _ => none

/-- Why the decoder rejects a word. -/
def rejected (cw : Word) : Option Illegal :=
  match decode ⟨cw, 0, 0⟩ with
  | .ok _ => none
  | .error e => some e

/-- A command answered OK with a result. -/
def ok (v : Nat) : Option Response := some ⟨.ok, BitVec.ofNat 64 v⟩

/-- A command that failed. -/
def bad (st : Status) : Option Response := some ⟨st, 0⟩

/-! ### Well-formedness: one ill-formed term for each check -/

theorem test_wf_refuses :
    [.rdsr 12, .bbwrite 0 1, .bbwrite 65 1, .bbread .view 0, .bbread .buffer 65, .bbpeek .view 0, .bbpeek .buffer 65,
      .crccomp 0 12, .crcverify 0 0 12, .ficcfg 2, .ficcfg 5, .msccfg false 64 8, .msccfg true 5 20, .mscparse 64].all
      (fun i : Instr => !i.wellFormed Params.default) = true := by decide

theorem test_wf_accepts :
    [.rdsr 11, .bbwrite 1 1, .bbwrite 64 1, .bbread .view 1, .bbpeek .buffer 64, .crccomp 3 8, .crcverify 0 0 0,
      .ficcfg 3, .ficcfg 4, .fibrd 3 31, .msccfg true 63 24, .msccfg false 5 20, .mscparse 63, .bbslice 1 2].all
      (fun i : Instr => i.wellFormed Params.default) = true := by decide

/-! ### Decoding: words written out from the encoding tables -/

theorem test_decode_rdsr : decoded 0b0000_0001_0000000000000000_0000_1000#32 = some (.rdsr 8) := by decide
theorem test_decode_bbwrite : decoded 0b0001_0000_0000000000000000_0000_1100#32 = some (.bbwrite 12 0) := by decide
theorem test_decode_bbread : decoded 0b0001_0001_0000000000000000_0100_0000#32 = some (.bbread .buffer 64) := by decide
theorem test_decode_bbread_v : decoded 0b0001_0001_1000000000000000_0000_1011#32 = some (.bbread .view 11) := by decide
theorem test_decode_bbpeek : decoded 0b0001_0010_0000000000000000_0000_0101#32 = some (.bbpeek .buffer 5) := by decide
theorem test_decode_bbpeek_v : decoded 0b0001_0010_1000000000000000_0000_0001#32 = some (.bbpeek .view 1) := by decide
theorem test_decode_bbrem : decoded 0b0001_0011_000000000000000000000000#32 = some (.bbrem .buffer) := by decide
theorem test_decode_bbrem_v : decoded 0b0001_0011_100000000000000000000000#32 = some (.bbrem .view) := by decide
theorem test_decode_bbreset : decoded 0b0001_0100_000000000000000000000000#32 = some .bbreset := by decide
theorem test_decode_bbslice : decoded 0b0001_0101_000000000000000000000000#32 = some (.bbslice 0 0) := by decide
theorem test_decode_crccomp : decoded 0b0010_0000_000000000000000000000000#32 = some (.crccomp 0 0) := by decide
theorem test_decode_crcverify : decoded 0b0010_0001_00000000_0010101001000101#32 = some (.crcverify 0x2A45 0 0) := by decide
theorem test_decode_ficcfg : decoded 0b0011_0000_0000000000000000_0000_0100#32 = some (.ficcfg 4) := by decide
theorem test_decode_ficnew : decoded 0b0011_0001_000000000000000000000000#32 = some .ficnew := by decide
theorem test_decode_fiblatch : decoded 0b0011_0010_000000000000000000000000#32 = some .fiblatch := by decide
theorem test_decode_fibcommit : decoded 0b0011_0011_000000000000000000000000#32 = some .fibcommit := by decide
theorem test_decode_fibrd : decoded 0b0011_0100_00000000000000_10_000_11110#32 = some (.fibrd 2 30) := by decide
theorem test_decode_msccfg : decoded 0b0011_1000_000000000000000_1_0000_0111#32 = some (.msccfg true 7 0) := by decide
theorem test_decode_mscparse : decoded 0b0011_1001_0000000000000000_0000_1001#32 = some (.mscparse 9) := by decide

theorem test_decode_unknown :
    [0x00000000, 0xFFFFFFFF, 0x02000000, 0x16000000, 0x35000000, 0x3A000000].all
      (fun w : Word => rejected w == some .unknownOpcode) = true := by decide

theorem test_decode_reserved :
    [0x10800008, 0x14000001, 0x14800000, 0x15800000, 0x01000100, 0x11000100, 0x11400001, 0x13000001, 0x21010000,
      0x34000020, 0x34000400, 0x38000200].all (fun w : Word => rejected w == some .reservedBitSet) = true := by decide

/-- The operands of a transaction's bits: `opa = 0xABC` at bit 32, `opb = 7` at bit 96. -/
theorem test_table_word :
    decodeTableWord 160 (0x1000000C + 0xABC * 2 ^ 32) = some (.bbwrite 12 0xABC) ∧
    decodeTableWord 160 (0x15000000 + 4 * 2 ^ 32 + 7 * 2 ^ 96) = some (.bbslice 4 7) ∧
    decodeTableWord 32 0x3400021E = some (.fibrd 2 30) ∧ decodeTableWord 32 0x10800008 = none := by decide

/-- The first step after reset runs the word placed where a step takes its event. -/
theorem test_first_step :
    reply (step (State.reset.withFetchWord 32 0x01000008)) = ok 0x200 ∧
    reply (step (State.reset.withFetchWord 32 0x01000000)) = ok 512 ∧
    reply (step (State.reset.withFetchWord 32 0x32000000)) = bad .illegalState ∧
    reply (step (State.reset.withFetchWord 32 0x02000000)) = bad .illegalCmd := by decide

/-! ### One step of each command -/

/-- B1, and the low bits of the byte keep their values (B8). -/
theorem test_bbwrite :
    reply (exec (.bbwrite 12 0xABC) (blk 4)) = ok 0 ∧ srAfter 1 (exec (.bbwrite 12 0xABC) (blk 4)) = some 12 ∧
    ((after (exec (.bbwrite 12 0xABC) (blk 4))).map State.bit) = some [(0, 0xAB), (1, 0xC0)] ∧
    ((after (exec (.bbwrite 4 0) (holding 2 [0xFF, 0xFF] 0 0))).map State.bit) = some [(0, 0x0F), (1, 0xFF)] := by
  decide

/-- B9: 64 bits across byte boundaries, after one bit. -/
theorem test_bbwrite_unaligned :
    ((after (exec (.bbwrite 64 0x0123456789ABCDEF) (holding 16 [0x80] 1 0))).map State.bit)
      = some (cells [0x80, 0x91, 0xA2, 0xB3, 0xC4, 0xD5, 0xE6, 0xF7, 0x80]) := by decide +kernel

/-- B2 and B10. -/
theorem test_bbread :
    reply (exec (.bbread .buffer 8) (holding 4 [0xAB, 0xC0] 12 4)) = ok 0xBC ∧
    srAfter 2 (exec (.bbread .buffer 8) (holding 4 [0xAB, 0xC0] 12 4)) = some 12 ∧
    reply (exec (.bbread .view 12) { holding 4 [0x12, 0x34, 0x56] 24 0 with view := ⟨true, 4, 12, 0⟩ }) = ok 0x234 ∧
    srAfter 6 (exec (.bbread .view 12) { holding 4 [0x12, 0x34, 0x56] 24 0 with view := ⟨true, 4, 12, 0⟩ })
      = some 12 := by decide

/-- B3. -/
theorem test_bbpeek :
    reply (exec (.bbpeek .buffer 12) (holding 4 [0xAB, 0xC0] 12 0)) = ok 0xABC ∧
    srAfter 2 (exec (.bbpeek .buffer 12) (holding 4 [0xAB, 0xC0] 12 0)) = some 0 := by decide

/-- B4 and B10. -/
theorem test_bbrem :
    reply (exec (.bbrem .buffer) (holding 4 [0xAB, 0xC0] 12 4)) = ok 8 ∧
    reply (exec (.bbrem .view) { holding 4 [] 24 0 with view := ⟨true, 4, 12, 5⟩ }) = ok 7 := by decide

/-- B13: cursors, view and MSC record cleared, the storage kept. -/
theorem test_bbreset :
    after (exec .bbreset { holding 4 [0x12] 8 3 with view := ⟨true, 0, 8, 1⟩, msc := ⟨true, 5, 0, 8, false, true⟩ })
      = some { holding 4 [0x12] 0 0 with rsp := ok 0 } := by decide

/-- B10. -/
theorem test_bbslice :
    after (exec (.bbslice 4 12) (holding 4 [0x12, 0x34, 0x56] 24 0))
      = some { holding 4 [0x12, 0x34, 0x56] 24 0 with view := ⟨true, 4, 12, 0⟩, rsp := ok 0 } := by decide

/-- Section 2: "123456789", the empty list, and the two final XORs. -/
theorem test_crc16 :
    crc16 0 [0x31, 0x32, 0x33, 0x34, 0x35, 0x36, 0x37, 0x38, 0x39] = 0x29B1 ∧ crc16 0 [] = 0xFFFF ∧
    crc16 0xFFFF [0x41, 0x42, 0x43] = 0x0AF7 ∧ crcTab 0x01 = 0x1021 ∧ crcTab 0x80 = 0x9188 ∧ crcTab 0xFF = 0x1EF0 := by
  decide

/-- P4 rows 16 and 17: a byte cut from bit address 3, and the whole of `BE EF`. -/
theorem test_crccomp :
    reply (exec (.crccomp 3 8) (holding 2 [0xBE, 0xEF] 16 0)) = ok 0x7E08 ∧
    reply (exec (.crccomp 0 16) (holding 2 [0xBE, 0xEF] 16 0)) = ok 0x2CCC := by decide

/-- P4 row 17's CRC, right and wrong. -/
theorem test_crcverify :
    reply (exec (.crcverify 0x2CCC 0 16) (holding 2 [0xBE, 0xEF] 16 0)) = ok 1 ∧
    reply (exec (.crcverify 0x2CCD 0 16) (holding 2 [0xBE, 0xEF] 16 0)) = ok 0 := by decide

/-- F1. -/
theorem test_ficcfg : reply (exec (.ficcfg 4) (blk 4)) = ok 0 ∧ srAfter 7 (exec (.ficcfg 4) (blk 4)) = some 4 := by decide

/-- A FIB of zeros with its CRC (S6), or with payload byte 0 changed to 0x80 (P2). -/
def fib (b : Byte) : Fib := ((Vector.replicate 32 (0 : Byte)).set 0 b).set 30 0x2A |>.set 31 0x45

/-- A frame of `count` FIBs with `n` of them appended and the next one, `h`, latched. -/
def latched (count n : Nat) (h : Fib) : State := { blk 160 with fibcount := count, fibn := n, fstate := .fibComplete, hold := h }

/-- F5: from `FRAME_COMPLETE` with `SR8 = 0x2EE`. -/
theorem test_ficnew :
    srAfter 8 (exec .ficnew
      { blk 4 with fibcount := 3, fibn := 3, fstate := .frameComplete, fibvalid := #v[true, true, true, false] })
      = some 0x200 := by decide

/-- F2: 32 bytes unread, from an address that is not a byte boundary. -/
theorem test_fiblatch :
    srAfter 8 (exec .fiblatch { holding 33 [0x01, 0xFF] 263 7 with fibcount := 3 }) = some 0x201 ∧
    srAfter 2 (exec .fiblatch { holding 33 [0x01, 0xFF] 263 7 with fibcount := 3 }) = some 263 ∧
    ((after (exec .fiblatch { holding 33 [0x01, 0xFF] 263 7 with fibcount := 3 })).map fun t => (t.hold[0], t.hold[1]))
      = some (0xFF, 0x80) := by decide

/-- F3: a valid FIB; P2 row 108: an invalid one. -/
theorem test_fibcommit :
    reply (exec .fibcommit (latched 3 0 (fib 0))) = ok 1 ∧ srAfter 8 (exec .fibcommit (latched 3 0 (fib 0))) = some 0x224 ∧
    reply (exec .fibcommit (latched 3 0 (fib 0x80))) = ok 0 ∧
    srAfter 8 (exec .fibcommit (latched 3 0 (fib 0x80))) = some 0x004 := by decide +kernel

/-- F4. -/
theorem test_fibrd :
    reply (exec (.fibrd 0 30) { blk 4 with fibn := 1, fibmem := Vector.replicate 4 (fib 0) }) = ok 0x2A ∧
    reply (exec (.fibrd 0 31) { blk 4 with fibn := 1, fibmem := Vector.replicate 4 (fib 0) }) = ok 0x45 := by decide

/-- M1: the row is overwritten whole. -/
theorem test_msccfg :
    ((after (exec (.msccfg false 5 20) { blk 4 with subch := [(5, ⟨true, 24, true⟩), (9, ⟨true, 8, false⟩)] })).map State.subch)
      = some [(5, ⟨true, 20, false⟩), (9, ⟨true, 8, false⟩)] := by decide

/-- M2's frame "ABC" with its CRC, in a view of `len` bits, for a row of `plen` bits with a CRC. -/
def abc (last plen len : Nat) : State :=
  { holding 8 [0x41, 0x42, 0x43, 0xF5, last] 40 0 with
    view := ⟨true, 0, len, 0⟩, subch := [(5, ⟨true, BitVec.ofNat 64 plen, true⟩)] }

/-- M2 and M3. -/
theorem test_mscparse :
    reply (exec (.mscparse 5) (abc 0x08 24 40)) = ok 1 ∧ srAfter 9 (exec (.mscparse 5) (abc 0x08 24 40)) = some 0x507 ∧
    srAfter 11 (exec (.mscparse 5) (abc 0x08 24 40)) = some 24 ∧
    reply (exec (.mscparse 5) (abc 0x09 24 40)) = ok 0 ∧ srAfter 9 (exec (.mscparse 5) (abc 0x09 24 40)) = some 0x503 := by
  decide

/-- F7: `0xAE` and `0x3F2`. -/
theorem test_rdsr :
    reply (exec (.rdsr 8) { blk 4 with
      fibcount := 3, fibn := 3, fstate := .frameComplete, fibvalid := #v[true, false, true, false], framevalid := false })
      = ok 0xAE ∧
    reply (exec (.rdsr 8) { blk 4 with
      fibcount := 4, fibn := 4, fstate := .frameComplete, fibvalid := #v[true, true, true, true] }) = ok 0x3F2 := by
  decide

/-! ### A state that meets the invariants, and what it has next to it -/

/-- Sixteen bits written, four read, a view, one FIB of three appended, a configured row and an MSC record; a BBREAD, a
reset and an illegal word wait. -/
def busy : State :=
  { holding 64 [0xAB, 0xCD] 16 4 with
    view := ⟨true, 4, 12, 8⟩, fibcount := 3, fibn := 1, fibmem := (Vector.replicate 4 (fib 0x80)).set 0 (fib 0)
    fibvalid := #v[true, false, false, false], subch := [(5, ⟨true, 8, true⟩)]
    msc := ⟨true, 5, 4, 8, true, false⟩
    inbox := [.command ⟨0x11000004, 0, 0⟩, .reset, .command ⟨0x10800008, 0, 0⟩] }

/-- `busy` with other values where nothing can be observed. -/
def busyToo : State :=
  { busy with bit := cells [0xAB, 0xCD, 0x11], hold := fib 0x55, fibmem := Vector.replicate 4 (fib 0) }

theorem witness_inv : Inv busy where
  params := by decide
  buffer := by unfold BufferInv; decide
  store := by unfold StoreInv; decide
  view := by unfold ViewInv; decide
  fic := ⟨by decide, by decide, by decide, by decide, by decide, by decide⟩
  subch := by unfold SubchInv; decide
  msc := by unfold MscInv; decide

theorem witness_every_step : Inv busy ∧ ∃ t, step busy = .next t := ⟨witness_inv, _, rfl⟩

theorem witness_unobservable : Inv busy ∧ Memory.wf busyToo.bit ∧ SameObservable busy busyToo ∧ busy ≠ busyToo :=
  ⟨witness_inv, by decide, ⟨rfl, by decide, by decide, by decide⟩, by decide⟩

theorem witness_legal : Params.legal ⟨1, 1, 0⟩ ∧ Params.legal ⟨2 ^ 60, 256, 0xFFFF⟩ ∧ Params.legal Params.default := by
  decide

/-! ### Encoding and step -/

theorem witness_decoded_word :
    decode ⟨0x11800040, 5, 6⟩ = .ok (.bbread .view 64) ∧ (Instr.bbslice 1 2).usesOpa = true ∧
    (Instr.bbslice 1 2).usesOpb = true ∧ decode ⟨0x15000000, 1, 2⟩ = .ok (.bbslice 1 2) := ⟨rfl, rfl, rfl, rfl⟩

theorem witness_rows :
    (∃ r ∈ opcodeTable, 0x34000300#32 &&& r.mask = r.mtch) ∧ ∀ r ∈ opcodeTable, 0x34000400#32 &&& r.mask ≠ r.mtch := by
  decide

theorem witness_unused_operands :
    decode ⟨0x13000000, 0, 0⟩ = .ok (.bbrem .buffer) ∧ (Instr.bbrem .buffer).usesOpa = false ∧
    (Instr.bbrem .buffer).usesOpb = false ∧ decode ⟨0x13000000, 7, 9⟩ = .ok (.bbrem .buffer) := ⟨rfl, rfl, rfl, rfl⟩

theorem witness_illegal_words :
    (0x35000000#32).extractLsb' 24 8 ∉ [0x01#8, 0x10#8, 0x11#8, 0x12#8, 0x13#8, 0x14#8, 0x15#8, 0x20#8, 0x21#8, 0x30#8,
      0x31#8, 0x32#8, 0x33#8, 0x34#8, 0x38#8, 0x39#8] ∧
    [0x10800008#32, 0x14800000#32, 0x15800000#32].all (fun w : Word =>
      [0x10#8, 0x14#8, 0x15#8].contains (w.extractLsb' 24 8) && w.getLsbD 23) = true := by decide

theorem witness_step_runs :
    busy.inbox = .command ⟨0x11000004, 0, 0⟩ :: busy.inbox.tail ∧ decode ⟨0x11000004, 0, 0⟩ = .ok (.bbread .buffer 4) :=
  ⟨rfl, rfl⟩

theorem witness_step_illegal :
    let s := { blk 4 with inbox := [.command ⟨0x10800008, 0, 0⟩] }
    s.inbox = .command ⟨0x10800008, 0, 0⟩ :: [] ∧ ∀ r ∈ opcodeTable, 0x10800008#32 &&& r.mask ≠ r.mtch := by decide

theorem witness_step_idle : (blk 4).inbox = [] := rfl

theorem witness_step_reset : ({ busy with inbox := [.reset] } : State).inbox = .reset :: [] := rfl

/-! ### Faults, responses and frames -/

theorem witness_fault_fibcommit :
    (latched 4 4 (fib 0)).fstate = .fibComplete ∧ 4 ≤ (latched 4 4 (fib 0)).fibn ∧
    faultOf (exec .fibcommit (latched 4 4 (fib 0))) = some (.noFibRecord 4) := by decide

/-- A view whose end is one bit beyond the written bits. -/
def overhang : State := { abc 0x08 16 33 with bbwr := 31 }

theorem witness_fault_view :
    1 ≤ (32#8).toNat ∧ (32#8).toNat ≤ 64 ∧ overhang.view.valid = true ∧ overhang.view.rd + (32#8).toNat ≤ overhang.view.len ∧
    overhang.bbwr < overhang.view.base + overhang.view.rd + (32#8).toNat ∧
    faultOf (exec (.bbread .view 32) overhang) = some (.unwrittenBits 0 32) ∧
    faultOf (exec (.bbpeek .view 32) overhang) = some (.unwrittenBits 0 32) := by decide

theorem witness_fault_mscparse :
    (5#8).toNat < overhang.cfg.nsubch ∧ overhang.view.valid = true ∧ (subchRead overhang.subch 5).cfgd = true ∧
    (subchRead overhang.subch 5).hc = true ∧ (subchRead overhang.subch 5).plen.toNat + 16 ≤ overhang.view.len ∧
    overhang.bbwr < overhang.view.base + ((subchRead overhang.subch 5).plen.toNat + 16) ∧
    faultOf (exec (.mscparse 5) overhang) = some (.unwrittenBits 0 32) := by decide

/-- A command that succeeds and one that fails: the hypothesis of the frame and response statements. -/
theorem witness_answered :
    Memory.wf busy.bit ∧ (∃ t, exec (.bbwrite 8 0xFF) busy = .next t ∧ t.rsp = ok 0) ∧
    ∃ t, exec (.bbread .buffer 13) busy = .next t ∧ t.rsp = bad .underflow :=
  ⟨by decide, ⟨_, rfl, rfl⟩, _, rfl, rfl⟩

/-- Transactions that are answered OK, with an error, and with ILLEGAL_CMD. -/
theorem witness_transactions :
    (∃ t, step { busy with inbox := [.command ⟨0x11000004, 0, 0⟩] } = .next t ∧ t.rsp = ok 0xB) ∧
    (∃ t, step { busy with inbox := [.command ⟨0x1100000D, 0, 0⟩] } = .next t ∧ t.rsp = bad .underflow) ∧
    ∃ t, step { busy with inbox := [.command ⟨0x10800008, 0, 0⟩] } = .next t ∧ t.rsp = bad .illegalCmd :=
  ⟨⟨_, rfl, rfl⟩, ⟨_, rfl, rfl⟩, _, rfl, rfl⟩

theorem witness_operand_clauses :
    (Instr.bbread .view 65).wellFormed busy.cfg = false ∧ (Instr.bbread .view 4).wellFormed busy.cfg = true ∧
    ∃ t, exec (.bbread .view 4) busy = .next t ∧ t.rsp = some ⟨.ok, 0xD⟩ := ⟨by decide, by decide, _, rfl, rfl⟩

theorem witness_read_only : ∀ i ∈ ([.rdsr 1, .bbpeek .view 4, .bbrem .buffer, .crccomp 0 8, .crcverify 0 0 8,
    .fibrd 0 30] : List Instr), (reply (exec i busy)).map Response.status = some .ok := by decide

/-- The bits `BBWR .. BBWR+7` are stored to by a BBWRITE of eight bits, and no others near them; a BBREAD stores to
none. -/
theorem witness_stored :
    bitStored busy (.bbwrite 8 0) 16 ∧ bitStored busy (.bbwrite 8 0) 23 ∧ ¬bitStored busy (.bbwrite 8 0) 15 ∧
    ¬bitStored busy (.bbwrite 8 0) 24 ∧ ¬bitStored busy (.bbread .buffer 4) 16 ∧
    ∀ k < 8, ¬bitStored busy (.bbwrite 8 0) (8 * 1 + k) := by
  simp only [bitStored]; decide

theorem witness_appended :
    Instr.fiblatch ≠ .ficnew ∧
    (∃ t, exec .fibcommit (latched 3 1 (fib 0)) = .next t ∧ (0 : Fin 4).val < (latched 3 1 (fib 0)).fibn) ∧
    (∃ t, exec .fibcommit { latched 3 1 (fib 0) with framevalid := false } = .next t) :=
  ⟨by decide, ⟨_, rfl, by decide⟩, _, rfl⟩

/-! ### The clauses of each command's statement, at their boundaries -/

theorem witness_bbwrite : Memory.wf busy.bit ∧
    reply (exec (.bbwrite 0 1) busy) = bad .illegalOperand ∧ reply (exec (.bbwrite 1 1) busy) = ok 0 ∧
    reply (exec (.bbwrite 64 1) busy) = ok 0 ∧ reply (exec (.bbwrite 65 1) busy) = bad .illegalOperand ∧
    reply (exec (.bbwrite 16 0) (holding 4 [] 16 0)) = ok 0 ∧
    reply (exec (.bbwrite 17 0) (holding 4 [] 16 0)) = bad .overflow := by decide

theorem witness_bbread : ViewInv busy ∧
    reply (exec (.bbread .buffer 0) busy) = bad .illegalOperand ∧ reply (exec (.bbread .view 65) busy) = bad .illegalOperand ∧
    reply (exec (.bbread .buffer 12) busy) = ok 0xBCD ∧ reply (exec (.bbread .buffer 13) busy) = bad .underflow ∧
    reply (exec (.bbread .view 1) (blk 4)) = bad .illegalState ∧
    reply (exec (.bbread .view 4) busy) = ok 0xD ∧ reply (exec (.bbread .view 5) busy) = bad .underflow :=
  ⟨witness_inv.view, by decide⟩

theorem witness_bbpeek : ViewInv busy ∧
    reply (exec (.bbpeek .buffer 65) busy) = bad .illegalOperand ∧ reply (exec (.bbpeek .view 0) busy) = bad .illegalOperand ∧
    reply (exec (.bbpeek .buffer 12) busy) = ok 0xBCD ∧ reply (exec (.bbpeek .buffer 13) busy) = bad .underflow ∧
    reply (exec (.bbpeek .view 1) (blk 4)) = bad .illegalState ∧
    reply (exec (.bbpeek .view 4) busy) = ok 0xD ∧ reply (exec (.bbpeek .view 5) busy) = bad .underflow :=
  ⟨witness_inv.view, by decide⟩

theorem witness_bbrem : Inv busy ∧ reply (exec (.bbrem .buffer) busy) = ok 12 ∧ reply (exec (.bbrem .view) busy) = ok 4 ∧
    reply (exec (.bbrem .view) (blk 4)) = bad .illegalState := ⟨witness_inv, by decide⟩

theorem witness_peek_then_read : ∃ p, exec (.bbpeek .buffer 12) busy = .next p ∧ p.rsp = ok 0xBCD := ⟨_, rfl, rfl⟩

/-- Room for exactly the field, and a value that fits and one that does not. -/
theorem witness_write_then_read :
    let s := holding 4 [0xFF] 20 20
    Memory.wf s.bit ∧ s.bbrd = s.bbwr ∧ 1 ≤ (12#8).toNat ∧ (12#8).toNat ≤ 64 ∧ s.bbwr + (12#8).toNat ≤ s.cfg.capBits ∧
    (0xABC#64).toNat < 2 ^ (12#8).toNat ∧ ¬(0x1ABC#64).toNat < 2 ^ (12#8).toNat := by decide

theorem witness_fields :
    let s := blk 4
    let fields : List (BitVec 8 × Operand) := [(3, 5), (11, 0x2AB), (7, 0xFFF), (11, 0x7FF)]
    Memory.wf s.bit ∧ s.bbrd = s.bbwr ∧ (∀ f ∈ fields, 1 ≤ f.1.toNat ∧ f.1.toNat ≤ 64) ∧
    s.bbwr + (fields.map fun f => f.1.toNat).sum ≤ s.cfg.capBits :=
  ⟨by decide, rfl, by simp, by decide⟩

theorem witness_bbslice : reply (exec (.bbslice 4 12) busy) = ok 0 ∧ reply (exec (.bbslice 4 13) busy) = bad .range ∧
    reply (exec (.bbslice 16 0) busy) = ok 0 ∧ reply (exec (.bbslice 17 0) busy) = bad .range ∧
    reply (exec (.bbslice 0x8000000000000000 0x8000000000000000) busy) = bad .range := by decide

theorem witness_crccomp : reply (exec (.crccomp 0 12) busy) = bad .illegalOperand ∧
    reply (exec (.crccomp 0 24) busy) = bad .range ∧ reply (exec (.crccomp 9 8) busy) = bad .range ∧
    (reply (exec (.crccomp 8 8) busy)).map Response.status = some .ok ∧
    reply (exec (.crccomp 16 0) busy) = ok 0xFFFF := by decide

theorem witness_crcverify : reply (exec (.crcverify 0xFFFF 0 12) busy) = bad .illegalOperand ∧
    reply (exec (.crcverify 0xFFFF 9 8) busy) = bad .range ∧ reply (exec (.crcverify 0xFFFF 16 0) busy) = ok 1 ∧
    reply (exec (.crcverify 0xFFFE 16 0) busy) = ok 0 := by decide

theorem witness_single_bit : Memory.wf (holding 2 [0xBE, 0xEF] 16 0).bit ∧
    ∃ t, exec (.crccomp 0 16) (holding 2 [0xBE, 0xEF] 16 0) = .next t ∧ t.rsp = some ⟨.ok, 0x2CCC⟩ :=
  ⟨by decide, _, rfl, rfl⟩

theorem witness_fib_valid : fibValid 0 (fib 0) = true ∧ fibValid 0 (fib 0x80) = false := by decide +kernel

theorem witness_ficcfg : reply (exec (.ficcfg 2) (blk 4)) = bad .illegalOperand ∧ reply (exec (.ficcfg 3) (blk 4)) = ok 0 ∧
    reply (exec (.ficcfg 4) (blk 4)) = ok 0 ∧ reply (exec (.ficcfg 5) (blk 4)) = bad .illegalOperand ∧
    reply (exec (.ficcfg 3) busy) = bad .illegalState ∧ reply (exec (.ficcfg 3) (latched 3 0 (fib 0))) = bad .illegalState := by
  decide

theorem witness_fiblatch : reply (exec .fiblatch (holding 33 [] 256 0)) = bad .illegalState ∧
    reply (exec .fiblatch (latched 3 0 (fib 0))) = bad .illegalState ∧
    reply (exec .fiblatch { holding 33 [] 256 1 with fibcount := 3 }) = bad .underflow ∧
    reply (exec .fiblatch { holding 33 [] 257 1 with fibcount := 3 }) = ok 0 := by decide

theorem witness_fibcommit : reply (exec .fibcommit busy) = bad .illegalState ∧
    (latched 3 1 (fib 0)).fibn < 4 ∧ srAfter 8 (exec .fibcommit (latched 3 1 (fib 0))) = some 0x248 ∧
    srAfter 8 (exec .fibcommit (latched 3 2 (fib 0))) = some 0x28E ∧
    srAfter 8 (exec .fibcommit (latched 4 2 (fib 0))) = some 0x28C ∧
    srAfter 8 (exec .fibcommit (latched 4 3 (fib 0))) = some 0x312 := by decide +kernel

theorem witness_fibrd : reply (exec (.fibrd 0 31) busy) = ok 0x45 ∧ reply (exec (.fibrd 1 0) busy) = bad .illegalState := by
  decide

theorem witness_frame :
    let s := { holding 160 [] 1027 3 with fibcount := 4 }
    (s.fibcount = 3 ∨ s.fibcount = 4) ∧ 4 ≤ s.fibcount ∧ s.bbrd + 256 * 4 ≤ s.bbwr := by decide

theorem witness_msccfg : subchWf busy.subch ∧
    reply (exec (.msccfg false 63 20) busy) = ok 0 ∧ reply (exec (.msccfg false 64 8) busy) = bad .illegalOperand ∧
    reply (exec (.msccfg true 5 24) busy) = ok 0 ∧ reply (exec (.msccfg true 5 20) busy) = bad .illegalOperand := by decide

theorem witness_mscparse_errors : reply (exec (.mscparse 64) (abc 8 24 40)) = bad .illegalOperand ∧
    reply (exec (.mscparse 63) (abc 8 24 40)) = bad .illegalState ∧
    reply (exec (.mscparse 5) { abc 8 24 40 with view := View.none }) = bad .illegalState ∧
    reply (exec (.mscparse 5) (abc 8 24 23)) = bad .lengthMismatch := by decide

theorem witness_mscparse_verdicts : ViewInv (abc 8 24 40) ∧
    srAfter 9 (exec (.mscparse 5) (abc 8 24 24)) = some 0x503 ∧ srAfter 9 (exec (.mscparse 5) (abc 8 24 39)) = some 0x503 ∧
    srAfter 9 (exec (.mscparse 5) (abc 8 24 40)) = some 0x507 ∧
    srAfter 9 (exec (.mscparse 5) { abc 8 24 40 with subch := [(5, ⟨true, 20, false⟩)] }) = some 0x505 :=
  ⟨by unfold ViewInv; decide, by decide, by decide, by decide, by decide⟩

theorem witness_sliced : Inv busy ∧ busy.msc.present = true := ⟨witness_inv, rfl⟩

theorem witness_rdsr : 11 < (12#8).toNat ∧ reply (exec (.rdsr 12) busy) = bad .illegalOperand ∧
    reply (exec (.rdsr 11) busy) = ok 8 ∧ reply (exec (.rdsr 9) busy) = ok 0x503 ∧
    reply (exec (.rdsr 0) (State.resetWith Params.default)) = ok 512 := by decide

end Sys2Proof.Tests
end

/-! The values of the block's state after reset (10_state.md R44). -/

namespace Sys2Proof.Machine

/-- With no row listed, every subchannel id reads the unwritten row (log entry 10). -/
@[simp] theorem subchRead_nil (id : Nat) : subchRead [] id = SubchRow.empty := rfl

theorem State.resetWith_subchRead (p : Params) (id : Nat) :
    subchRead (State.resetWith p).subch id = SubchRow.empty := by
  rw [State.resetWith_subch, subchRead_nil]

theorem State.resetWith_fibvalid_getElem (p : Params) (k : Fin 4) : (State.resetWith p).fibvalid[k] = false := by
  rw [State.resetWith_fibvalid, Fin.getElem_fin, Vector.getElem_replicate]

/-- Settles O11: row by row of 10_state.md R44. The scalar fields, the view and the MSC record hold their values by the
definition of the reset state; the two tables are read at every index through the lemmas above. -/
theorem resetValues : Obligations.ResetValues := by
  intro p s
  have fibFlags : ∀ k : Fin 4, s.fibvalid[k] = false := State.resetWith_fibvalid_getElem p
  have subchRows (id : Nat) : (subchRead s.subch id).cfgd = false ∧ (subchRead s.subch id).plen = 0 ∧
      (subchRead s.subch id).hc = false := by
    rw [State.resetWith_subchRead p id]
    exact ⟨rfl, rfl, rfl⟩
  have view : s.view = View.none := State.resetWith_view p
  have msc : s.msc = MscRecord.empty := State.resetWith_msc p
  rw [view, msc]
  exact ⟨State.resetWith_bbwr p, State.resetWith_bbrd p, rfl, rfl, rfl, rfl, State.resetWith_fibcount p,
    State.resetWith_fstate p, State.resetWith_fibn p, fibFlags, State.resetWith_framevalid p, subchRows,
    rfl, rfl, rfl, rfl, rfl, rfl, State.resetWith_cfg p⟩

end Sys2Proof.Machine

/-! The BitBuffer commands (40_bitbuffer.md): the words of their encodings, an equation for each case of the shared
checks, and the obligations of the family. -/

namespace Sys2Proof.Machine

/-! ### The encodings -/

/-- A format-W word is the format-T word of the same opcode and target with `WIDTH` in its low byte (30_encoding.md
R81). -/
theorem formatW_eq_formatT_add (opc : BitVec 8) (t : Target) (width : BitVec 8) :
    formatW opc t width = formatT opc t + width.setWidth 32 := by
  have disjoint : formatT opc t &&& width.setWidth 32 = 0#32 := by
    refine BitVec.eq_of_getLsbD_eq fun j hj => ?_
    simp only [formatT, BitVec.getLsbD_and, BitVec.getLsbD_append, BitVec.getLsbD_setWidth]
    by_cases h : j < 23
    · simp [h]
    · simp [BitVec.getLsbD_of_ge width j (by omega)]
  rw [BitVec.add_eq_or_of_and_eq_zero _ _ disjoint]
  refine BitVec.eq_of_getLsbD_eq fun j hj => ?_
  simp only [formatW, formatT, BitVec.getLsbD_or, BitVec.getLsbD_append, BitVec.getLsbD_setWidth]
  rcases lt_or_ge j 8 with h8 | h8
  · simp [h8, show j < 23 by omega, show j < 32 by omega]
  · rw [BitVec.getLsbD_of_ge width j h8, Nat.sub_sub]
    by_cases h23 : j < 23
    · simp [h23, not_lt.2 h8, show j - 8 < 15 by omega]
    · simp [h23, not_lt.2 h8, show ¬j - 8 < 15 by omega]

/-! ### The width check and the bounds of a target -/

theorem legalWidth_iff (width : BitVec 8) : legalWidth width = true ↔ 1 ≤ width.toNat ∧ width.toNat ≤ 64 := by
  simp [legalWidth]

theorem legalWidth_of_not_outside {width : BitVec 8} (h : ¬(width.toNat < 1 ∨ 64 < width.toNat)) :
    legalWidth width = true :=
  (legalWidth_iff width).2 (by omega)

theorem legalWidth_of_outside {width : BitVec 8} (h : width.toNat < 1 ∨ 64 < width.toNat) :
    legalWidth width = false := by
  rw [Bool.eq_false_iff, ne_eq, legalWidth_iff]
  omega

/-- A present view ends within the written bits (10_state.md R27). -/
theorem ViewInv.end_le_bbwr {s : State} (h : ViewInv s) (hv : s.view.valid = true) :
    s.view.base + s.view.len ≤ s.bbwr :=
  (h.1 hv).1

/-- Either target's read cursor is within its readable bits, and these within the written ones (10_state.md R25,
R27). -/
theorem Inv.window_le {s : State} {target : Target} {win : Window} (hi : Inv s) (hwin : s.window target = some win) :
    win.rd ≤ win.limit ∧ win.base + win.limit ≤ s.bbwr := by
  cases target with
  | buffer =>
    cases hwin
    exact ⟨hi.buffer.1, (Nat.zero_add _).le⟩
  | view =>
    by_cases hv : s.view.valid = true
    · rw [window_view_of_valid hv] at hwin
      cases hwin
      exact ⟨(hi.view.1 hv).2, hi.view.end_le_bbwr hv⟩
    · simp [window_view_of_invalid (Bool.eq_false_iff.2 hv)] at hwin

/-- The write cursor fits 64 bits: `CAP_BITS` is at most 2^63 (00_scope.md R10). -/
theorem Inv.bbwr_lt {s : State} (hi : Inv s) : s.bbwr < 2 ^ 64 := by
  have hcap : s.bbwr ≤ 8 * s.cfg.capBytes := hi.buffer.2
  have hbytes : s.cfg.capBytes ≤ 2 ^ 60 := hi.params.1.2
  omega

/-! ### The shared read of BBREAD and BBPEEK, case by case -/

section FieldRead

variable {s : State} {target : Target} {width : BitVec 8} {win : Window} (after : Operand → Result)

theorem fieldRead_of_illegal_width (h : legalWidth width = false) :
    fieldRead target width s after = .next (s.raise .illegalOperand) := by
  simp [fieldRead, h]

theorem fieldRead_of_no_view (h : legalWidth width = true) (hwin : s.window target = none) :
    fieldRead target width s after = .next (s.raise .illegalState) := by
  simp [fieldRead, h, hwin]

theorem fieldRead_of_too_few (h : legalWidth width = true) (hwin : s.window target = some win)
    (hfew : win.limit < win.rd + width.toNat) : fieldRead target width s after = .next (s.raise .underflow) := by
  simp [fieldRead, h, hwin, hfew]

/-- Where the window is within the written bits, so is the field, and the read does not fault. -/
theorem fieldRead_of_enough (h : legalWidth width = true) (hwin : s.window target = some win)
    (hle : win.rd + width.toNat ≤ win.limit) (hend : win.base + win.limit ≤ s.bbwr) :
    ∃ v, IsField s.bit (win.base + win.rd) width.toNat v ∧ fieldRead target width s after = after v := by
  refine ⟨_, Memory.readBits_isField s.bit (win.base + win.rd) width.toNat ((legalWidth_iff width).1 h).2, ?_⟩
  have hread : win.base + win.rd + width.toNat ≤ s.bbwr := by omega
  simp [fieldRead, h, hwin, hle, reading_of_le _ hread]

end FieldRead

/-- What BBREAD and BBPEEK answer through either target, in the order of the checks; `after` tells them apart. -/
theorem fieldRead_answers (width : BitVec 8) (s : State) (after : Target → Operand → Result) :
    if width.toNat < 1 ∨ 64 < width.toNat then
      ∀ target, fieldRead target width s (after target) = .next (s.raise .illegalOperand)
    else
      (if s.bbwr < s.bbrd + width.toNat then
        fieldRead .buffer width s (after .buffer) = .next (s.raise .underflow)
      else ∃ v, IsField s.bit s.bbrd width.toNat v ∧
        fieldRead .buffer width s (after .buffer) = after .buffer v) ∧
      (if s.view.valid = false then
        fieldRead .view width s (after .view) = .next (s.raise .illegalState)
      else if s.view.len < s.view.rd + width.toNat then
        fieldRead .view width s (after .view) = .next (s.raise .underflow)
      else ViewInv s → ∃ v, IsField s.bit (s.view.base + s.view.rd) width.toNat v ∧
        fieldRead .view width s (after .view) = after .view v) := by
  by_cases hout : width.toNat < 1 ∨ 64 < width.toNat
  · rw [if_pos hout]
    exact fun target => fieldRead_of_illegal_width _ (legalWidth_of_outside hout)
  rw [if_neg hout]
  have hw := legalWidth_of_not_outside hout
  constructor
  · split_ifs with hfew
    · exact fieldRead_of_too_few _ hw (window_buffer s) hfew
    · simpa using fieldRead_of_enough (after .buffer) hw (window_buffer s) (not_lt.1 hfew) (by simp)
  · split_ifs with hv hfew
    · exact fieldRead_of_no_view _ hw (window_view_of_invalid hv)
    · exact fieldRead_of_too_few _ hw (window_view_of_valid (Bool.of_not_eq_false hv)) hfew
    · have hvalid := Bool.of_not_eq_false hv
      intro hinv
      simpa using fieldRead_of_enough (after .view) hw (window_view_of_valid hvalid) (not_lt.1 hfew)
        (hinv.end_le_bbwr hvalid)

/-! ### BBWRITE, BBREM and BBSLICE, case by case -/

section Commands

variable {s : State}

theorem execBbwrite_of_illegal_width {w : BitVec 8} (v : Operand) (h : legalWidth w = false) :
    execBbwrite w v s = .next (s.raise .illegalOperand) := by
  simp [execBbwrite, h]

theorem execBbwrite_of_no_room {w : BitVec 8} (v : Operand) (h : legalWidth w = true)
    (hfull : s.cfg.capBits < s.bbwr + w.toNat) : execBbwrite w v s = .next (s.raise .overflow) := by
  simp [execBbwrite, h, hfull]

theorem execBbwrite_of_room {w : BitVec 8} (v : Operand) (h : legalWidth w = true)
    (hroom : s.bbwr + w.toNat ≤ s.cfg.capBits) :
    execBbwrite w v s = .next ({ s with
      bit := Memory.writeBits s.bit s.bbwr w.toNat v.toNat, bbwr := s.bbwr + w.toNat }.respond 0) := by
  simp [execBbwrite, h, hroom]

theorem execBbrem_of_no_view {target : Target} (hwin : s.window target = none) :
    execBbrem target s = .next (s.raise .illegalState) := by
  simp [execBbrem, hwin]

/-- BBREM answers the distance from the cursor to the end of the window; under the invariants neither the subtraction
nor the 64-bit result loses anything (log entry 8). -/
theorem execBbrem_of_window {target : Target} {win : Window} (hwin : s.window target = some win) :
    ∃ v : Operand, execBbrem target s = .next (s.respond v) ∧ (Inv s → v.toNat + win.rd = win.limit) := by
  refine ⟨BitVec.ofNat 64 (win.limit - win.rd), by simp [execBbrem, hwin], fun hi => ?_⟩
  obtain ⟨hrd, hend⟩ := hi.window_le hwin
  have hlt := hi.bbwr_lt
  rw [BitVec.toNat_ofNat, Nat.mod_eq_of_lt (by omega)]
  omega

theorem execBbslice_of_outside {start length : Operand} (h : s.bbwr < start.toNat + length.toNat) :
    execBbslice start length s = .next (s.raise .range) := by
  simp [execBbslice, rangeWritten_iff, h]

theorem execBbslice_of_within {start length : Operand} (h : start.toNat + length.toNat ≤ s.bbwr) :
    execBbslice start length s
      = .next ({ s with view := ⟨true, start.toNat, length.toNat, 0⟩ }.respond 0) := by
  simp [execBbslice, rangeWritten_iff, h]

end Commands

/-! ### The obligations -/

/-- Settles O28: past the two checks the new store is `Memory.writeBits`, whose bits are known at every address. -/
theorem bbwriteStoresTheField : Obligations.BbwriteStoresTheField := by
  intro w v s hwf
  refine ⟨congrArg (Transaction.mk · v 0) (formatW_eq_formatT_add 0x10#8 .buffer w), ?_⟩
  split_ifs with hout hfull
  · exact execBbwrite_of_illegal_width v (legalWidth_of_outside hout)
  · exact execBbwrite_of_no_room v (legalWidth_of_not_outside hout) hfull
  · refine ⟨Memory.writeBits s.bit s.bbwr w.toNat v.toNat,
      execBbwrite_of_room v (legalWidth_of_not_outside hout) (not_lt.1 hfull), fun k hk => ?_, fun a ha => ?_⟩
    · rw [Memory.getBit_writeBits _ _ _ _ _ hwf, if_pos (by omega), Nat.add_sub_cancel_left, BitVec.testBit_toNat]
    · rw [Memory.getBit_writeBits _ _ _ _ _ hwf, if_neg (by omega)]

/-- Settles O29: the shared read, followed by the advance of the target's cursor. -/
theorem bbreadReturnsTheFieldAndAdvances : Obligations.BbreadReturnsTheFieldAndAdvances := fun w s =>
  ⟨congrArg (Transaction.mk · 0 0) (formatW_eq_formatT_add 0x11#8 .buffer w),
    congrArg (Transaction.mk · 0 0) (formatW_eq_formatT_add 0x11#8 .view w),
    fieldRead_answers w s fun target v => .next ((s.advance w.toNat target).respond v)⟩

/-- Settles O30: the shared read, followed by the response alone. -/
theorem bbpeekReturnsTheFieldAndStays : Obligations.BbpeekReturnsTheFieldAndStays := fun w s =>
  ⟨congrArg (Transaction.mk · 0 0) (formatW_eq_formatT_add 0x12#8 .buffer w),
    congrArg (Transaction.mk · 0 0) (formatW_eq_formatT_add 0x12#8 .view w),
    fieldRead_answers w s fun _ v => .next (s.respond v)⟩

/-- Settles O31: each target through its window. -/
theorem bbremCountsTheReadableBits : Obligations.BbremCountsTheReadableBits := by
  intro s
  refine ⟨rfl, rfl, execBbrem_of_window (window_buffer s), ?_⟩
  split_ifs with hv
  · exact execBbrem_of_no_view (window_view_of_invalid hv)
  · exact execBbrem_of_window (window_view_of_valid (Bool.of_not_eq_false hv))

/-- Settles O33: the meaning of BBRESET is this update, with no check before it. -/
theorem bbresetEmptiesTheBuffer : Obligations.BbresetEmptiesTheBuffer :=
  ⟨rfl, fun _ => rfl⟩

/-- Settles O34: the sum in the naturals decides between the two answers. -/
theorem bbsliceSetsTheView : Obligations.BbsliceSetsTheView := by
  intro start length s
  refine ⟨rfl, ?_⟩
  split_ifs with hr
  · exact execBbslice_of_outside hr
  · exact execBbslice_of_within (not_lt.1 hr)

end Sys2Proof.Machine

/-! The CRC Engine (41_crc.md): the answers CRCCOMP and CRCVERIFY share, the algebra of the CRC register,
and the obligations of the family. -/

namespace Sys2Proof.Machine

/-! ### The encoding -/

/-- A format-V word is its opcode's word with `EXP` in the low half (30_encoding.md R81). -/
theorem formatV_eq_add (opc : BitVec 8) (exp : Crc) : formatV opc exp = (opc ++ 0#24) + exp.setWidth 32 := by
  refine BitVec.eq_of_toNat_eq ?_
  have hopc := opc.isLt
  have hexp := exp.isLt
  rw [formatV, BitVec.toNat_append, ← Nat.shiftLeft_add_eq_or_of_lt hexp]
  simp only [BitVec.toNat_append, BitVec.toNat_add, BitVec.toNat_setWidth, BitVec.toNat_ofNat, Nat.zero_mod,
    Nat.or_zero, Nat.shiftLeft_eq]
  omega

/-! ### The checks of CRCCOMP and CRCVERIFY -/

section Commands

variable {start length : Operand} {s t : State} (result : Crc → Operand)

theorem crcCommand_of_within (hbytes : length.toNat % 8 = 0) (hin : start.toNat + length.toNat ≤ s.bbwr) :
    crcCommand start length s result = .next (s.respond (result
      (crc16 s.cfg.crcXorout (Memory.bytesAt s.bit start.toNat (length.toNat / 8))))) := by
  rcases crcCommand_cases start length s result with ⟨hpart, -⟩ | ⟨-, hout, -⟩ | ⟨-, -, e⟩
  · exact absurd hbytes hpart
  · exact absurd hin (not_le.2 hout)
  · exact e

/-- What CRCCOMP and CRCVERIFY answer, in the order of the checks; `result` tells them apart. -/
theorem crcCommand_answers (start length : Operand) (s : State) :
    if length.toNat % 8 ≠ 0 then
      crcCommand start length s result = .next (s.raise .illegalOperand)
    else if s.bbwr < start.toNat + length.toNat then
      crcCommand start length s result = .next (s.raise .range)
    else ∃ d : List Byte, IsBytes s.bit start.toNat (length.toNat / 8) d ∧
      crcCommand start length s result = .next (s.respond (result (crc16 s.cfg.crcXorout d))) := by
  rcases crcCommand_cases start length s result with ⟨hpart, e⟩ | ⟨hbytes, hout, e⟩ | ⟨hbytes, hin, e⟩
  · rwa [if_pos hpart]
  · rwa [if_neg (not_not.2 hbytes), if_pos hout]
  · rw [if_neg (not_not.2 hbytes), if_neg (not_lt.2 hin)]
    exact ⟨_, Memory.bytesAt_isBytes s.bit start.toNat (length.toNat / 8), e⟩

/-- An `OK` answer tells that both checks passed and what the result is. -/
theorem crcCommand_ok {c : Operand} (h : crcCommand start length s result = .next t) (hok : t.rsp = some ⟨.ok, c⟩) :
    length.toNat % 8 = 0 ∧ start.toNat + length.toNat ≤ s.bbwr ∧
      c = result (crc16 s.cfg.crcXorout (Memory.bytesAt s.bit start.toNat (length.toNat / 8))) := by
  rcases crcCommand_next h with ⟨st, hst, rfl⟩ | ⟨hbytes, hin, rfl⟩
  · cases hok
    exact absurd rfl hst
  · cases hok
    exact ⟨hbytes, hin, rfl⟩

end Commands

theorem exec_crccomp (start length : Operand) (s : State) :
    exec (.crccomp start length) s = crcCommand start length s fun c => c.setWidth 64 := rfl

theorem exec_crcverify (exp : Crc) (start length : Operand) (s : State) :
    exec (.crcverify exp start length) s = crcCommand start length s fun c => if c = exp then 1 else 0 := by
  have result (c : Crc) : boolResult (c == exp) = if c = exp then 1 else 0 := by simp [boolResult]
  simp only [exec, execCrcverify, result]

theorem exec_crcverify_of_within {start length : Operand} {s : State} (exp : Crc) (hbytes : length.toNat % 8 = 0)
    (hin : start.toNat + length.toNat ≤ s.bbwr) :
    exec (.crcverify exp start length) s = .next (s.respond
      (if crc16 s.cfg.crcXorout (Memory.bytesAt s.bit start.toNat (length.toNat / 8)) = exp then 1 else 0)) := by
  rw [exec_crcverify, crcCommand_of_within _ hbytes hin]

/-! ### The algebra of the CRC register

The table-driven step is eight shifts of the register with the byte XORed into its high half, because the shift is
linear and is a plain shift while the top bits are 0. The shift loses nothing: the bit it drops comes back as bit 0, the
lowest bit of the polynomial. So the step is injective in the register and in the byte. -/

/-- The shift is linear: where both top bits are 1 the two polynomials cancel. -/
theorem crcShift_xor (a b : Crc) : crcShift (a ^^^ b) = crcShift a ^^^ crcShift b := by
  unfold crcShift
  rw [BitVec.getLsbD_xor, BitVec.shiftLeft_xor_distrib]
  cases a.getLsbD 15 <;> cases b.getLsbD 15
  · rfl
  · exact BitVec.xor_assoc ..
  · simp only [Bool.xor_false, Bool.false_eq_true, if_true, if_false]
    ac_rfl
  · simp only [Bool.xor_self, Bool.false_eq_true, if_true, if_false]
    calc a <<< 1 ^^^ b <<< 1
        = a <<< 1 ^^^ b <<< 1 ^^^ (0x1021#16 ^^^ 0x1021#16) := by rw [BitVec.xor_self, BitVec.xor_zero]
      _ = (a <<< 1 ^^^ 0x1021#16) ^^^ (b <<< 1 ^^^ 0x1021#16) := by ac_rfl

/-- The bit the shift drops is bit 0 of the result: the polynomial's lowest bit is 1. -/
theorem crcShift_getLsbD_zero (r : Crc) : (crcShift r).getLsbD 0 = r.getLsbD 15 := by
  unfold crcShift
  cases r.getLsbD 15 <;> simp

theorem crcShift_injective : Function.Injective crcShift := by
  intro a b h
  have top : a.getLsbD 15 = b.getLsbD 15 := by rw [← crcShift_getLsbD_zero, h, crcShift_getLsbD_zero]
  have rest : a <<< 1 = b <<< 1 := by
    unfold crcShift at h
    rw [top] at h
    split_ifs at h
    · exact (BitVec.xor_left_inj _).1 h
    · exact h
  refine BitVec.eq_of_getLsbD_eq fun j hj => ?_
  rcases Nat.lt_succ_iff_lt_or_eq.1 hj with hj | rfl
  · have := congrArg (BitVec.getLsbD · (j + 1)) rest
    simpa [show j + 1 < 16 by omega, show j < 16 by omega] using this
  · exact top

/-! ### Eight shifts -/

theorem repeatCrc_crcShift_xor (n : Nat) (a b : Crc) :
    repeatCrc crcShift n (a ^^^ b) = repeatCrc crcShift n a ^^^ repeatCrc crcShift n b := by
  induction n generalizing a b with
  | zero => rfl
  | succ n ih => simp only [repeatCrc, crcShift_xor, ih]

theorem repeatCrc_injective {f : Crc → Crc} (hf : Function.Injective f) (n : Nat) :
    Function.Injective (repeatCrc f n) := by
  induction n with
  | zero => exact fun _ _ h => h
  | succ n ih => exact ih.comp hf

/-- While the top `n` bits are 0, no shift subtracts the polynomial. -/
theorem repeatCrc_crcShift_of_top_zero (n : Nat) (r : Crc) (h : ∀ j, 16 - n ≤ j → r.getLsbD j = false) :
    repeatCrc crcShift n r = r <<< n := by
  induction n generalizing r with
  | zero => exact (BitVec.shiftLeft_zero r).symm
  | succ n ih =>
    have hstep : crcShift r = r <<< 1 := if_neg (by rw [h 15 (by omega)]; decide)
    have htop (j : Nat) (hj : 16 - n ≤ j) : (r <<< 1).getLsbD j = false := by
      simp [BitVec.getLsbD_shiftLeft, h (j - 1) (by omega)]
    rw [repeatCrc, hstep, ih _ htop, ← BitVec.shiftLeft_add, Nat.add_comm]

/-- The low byte of the register, with zeros above it. -/
def crcLow (c : Crc) : Crc := (c.setWidth 8).setWidth 16

theorem crcLow_getLsbD (c : Crc) (j : Nat) : (crcLow c).getLsbD j = (decide (j < 8) && c.getLsbD j) := by
  unfold crcLow
  by_cases h : j < 8
  · simp [h, show j < 16 by omega]
  · simp [h]

theorem repeatCrc_crcShift_crcLow (c : Crc) : repeatCrc crcShift 8 (crcLow c) = c <<< 8 := by
  rw [repeatCrc_crcShift_of_top_zero 8 _ fun j hj => by rw [crcLow_getLsbD, decide_eq_false (by omega), Bool.false_and]]
  refine BitVec.eq_of_getLsbD_eq fun j hj => ?_
  simp only [BitVec.getLsbD_shiftLeft, crcLow_getLsbD, decide_eq_true (show j - 8 < 8 by omega), Bool.true_and]

/-- The two halves of the register, with a byte XORed into the upper one. -/
theorem crcLow_xor_high (c : Crc) (b : Byte) :
    crcLow c ^^^ ((c.extractLsb' 8 8 ^^^ b) ++ 0#8) = c ^^^ (b ++ 0#8) := by
  refine BitVec.eq_of_getLsbD_eq fun j hj => ?_
  simp only [BitVec.getLsbD_xor, crcLow_getLsbD, BitVec.getLsbD_append, BitVec.getLsbD_extractLsb']
  by_cases h : j < 8
  · simp [h]
  · simp [h, show j - 8 < 8 by omega, show 8 + (j - 8) = j by omega]

/-- The byte enters in the high half of the register, which is then shifted eight times (41_crc.md R141, R142). -/
theorem crcStep_eq_repeatCrc (c : Crc) (b : Byte) : crcStep c b = repeatCrc crcShift 8 (c ^^^ (b ++ 0#8)) := by
  rw [← crcLow_xor_high, repeatCrc_crcShift_xor, repeatCrc_crcShift_crcLow]
  rfl

/-! ### One byte changed -/

theorem crcStep_left_injective (b : Byte) : Function.Injective (crcStep · b) := by
  intro c c' h
  simp only [crcStep_eq_repeatCrc] at h
  exact (BitVec.xor_left_inj _).1 (repeatCrc_injective crcShift_injective 8 h)

theorem crcStep_right_injective (c : Crc) : Function.Injective (crcStep c) := by
  intro b b' h
  simp only [crcStep_eq_repeatCrc] at h
  have hwords : b ++ 0#8 = b' ++ 0#8 := (BitVec.xor_right_inj c).1 (repeatCrc_injective crcShift_injective 8 h)
  exact (BitVec.append_left_inj _).1 hwords

theorem crcFold_injective (d : List Byte) : Function.Injective (crcFold · d) := by
  induction d with
  | nil => exact fun _ _ h => h
  | cons b d ih => exact ih.comp (crcStep_left_injective b)

/-- Registers of two messages with one differing byte differ. -/
theorem crcFold_ne_of_byte_ne (c : Crc) (p q : List Byte) {b b' : Byte} (h : b ≠ b') :
    crcFold c (p ++ b :: q) ≠ crcFold c (p ++ b' :: q) := by
  simp only [crcFold, List.foldl_append, List.foldl_cons]
  exact fun he => h (crcStep_right_injective _ (crcFold_injective q he))

theorem crc16_ne_of_byte_ne (xorout : Crc) (p q : List Byte) {b b' : Byte} (h : b ≠ b') :
    crc16 xorout (p ++ b :: q) ≠ crc16 xorout (p ++ b' :: q) :=
  fun he => crcFold_ne_of_byte_ne _ p q h ((BitVec.xor_left_inj _).1 he)

/-! ### One bit flipped -/

/-- The store with the bit at address `a` flipped. -/
def Memory.flipBit (m : Memory) (a : Nat) : Memory := Memory.setBit m a (!Memory.getBit m a)

theorem Memory.getBit_flipBit {m : Memory} (h : Memory.wf m) (a i : Nat) :
    Memory.getBit (Memory.flipBit m a) i = if i = a then !Memory.getBit m a else Memory.getBit m i :=
  Memory.getBit_setBit m a i _ h

/-- The bytes of a range around byte `j` of it. -/
theorem Memory.bytesAt_split (m : Memory) (addr j k : Nat) :
    Memory.bytesAt m addr (j + (k + 1)) =
      Memory.bytesAt m addr j ++ Memory.byteAt m (addr + 8 * j) :: Memory.bytesAt m (addr + 8 * j + 8) k := by
  induction j generalizing addr with
  | zero => simp [Memory.bytesAt]
  | succ j ih =>
    rw [Nat.add_right_comm, Memory.bytesAt, ih, Memory.bytesAt, List.cons_append,
      show addr + 8 + 8 * j = addr + 8 * (j + 1) by omega]

theorem Memory.bytesAt_flipBit_of_outside {m : Memory} (h : Memory.wf m) {a addr count : Nat}
    (hout : a < addr ∨ addr + 8 * count ≤ a) :
    Memory.bytesAt (Memory.flipBit m a) addr count = Memory.bytesAt m addr count :=
  Memory.bytesAt_congr _ _ _ _ fun k hk => by rw [Memory.getBit_flipBit h, if_neg (by omega)]

theorem Memory.byteAt_flipBit_ne {m : Memory} (h : Memory.wf m) {a addr : Nat} (hlo : addr ≤ a) (hhi : a < addr + 8) :
    Memory.byteAt (Memory.flipBit m a) addr ≠ Memory.byteAt m addr := by
  intro he
  have flipped := (Memory.byteAt_isField (Memory.flipBit m a) addr).1 (a - addr) (by omega)
  rw [he, (Memory.byteAt_isField m addr).1 (a - addr) (by omega), Nat.add_sub_cancel' hlo,
    Memory.getBit_flipBit h, if_pos rfl] at flipped
  exact Bool.not_ne_self _ flipped.symm

/-- A single flipped bit of the range changes one byte of it, and so its CRC (41_crc.md R147). -/
theorem crc16_flipBit_ne (xorout : Crc) {m : Memory} (h : Memory.wf m) {a addr count : Nat}
    (hlo : addr ≤ a) (hhi : a < addr + 8 * count) :
    crc16 xorout (Memory.bytesAt (Memory.flipBit m a) addr count) ≠ crc16 xorout (Memory.bytesAt m addr count) := by
  obtain ⟨j, k, hcount, hj, hj'⟩ : ∃ j k, count = j + (k + 1) ∧ addr + 8 * j ≤ a ∧ a < addr + 8 * j + 8 :=
    ⟨(a - addr) / 8, count - (a - addr) / 8 - 1, by omega⟩
  subst hcount
  rw [Memory.bytesAt_split, Memory.bytesAt_split, Memory.bytesAt_flipBit_of_outside h (.inr hj),
    Memory.bytesAt_flipBit_of_outside h (.inl hj')]
  exact crc16_ne_of_byte_ne xorout _ _ (Memory.byteAt_flipBit_ne h hj hj')

/-! ### The obligations -/

/-- Settles O39: the shared command, with the CRC itself as the result. -/
theorem crccompReturnsTheRangesCrc : Obligations.CrccompReturnsTheRangesCrc := fun start length s =>
  ⟨rfl, crcCommand_answers (fun c => c.setWidth 64) start length s⟩

/-- Settles O40: the shared command, with the comparison as the result. -/
theorem crcverifyComparesTheRangesCrc : Obligations.CrcverifyComparesTheRangesCrc := by
  intro exp start length s
  refine ⟨congrArg (Transaction.mk · start length) (formatV_eq_add 0x21#8 exp), ?_⟩
  simp only [exec_crcverify]
  exact crcCommand_answers _ start length s

/-- Settles O41: the CRC returned is that of the range's bytes, and one flipped bit of the range changes it. -/
theorem singleBitErrorsAreDetected : Obligations.SingleBitErrorsAreDetected := by
  intro start length s t c hwf hcomp hok
  rw [exec_crccomp] at hcomp
  obtain ⟨hbytes, hin, rfl⟩ := crcCommand_ok _ hcomp hok
  rw [BitVec.setWidth_setWidth_of_le _ (by decide), BitVec.setWidth_eq]
  refine ⟨?_, fun a hlo hhi => ?_⟩
  · rw [exec_crcverify_of_within _ hbytes hin, if_pos rfl]
    rfl
  · intro flipped
    have changed : crc16 s.cfg.crcXorout (Memory.bytesAt flipped.bit start.toNat (length.toNat / 8))
        ≠ crc16 s.cfg.crcXorout (Memory.bytesAt s.bit start.toNat (length.toNat / 8)) :=
      crc16_flipBit_ne s.cfg.crcXorout hwf hlo (by omega)
    rw [exec_crcverify_of_within (s := flipped) _ hbytes hin, if_neg changed]
    rfl

end Sys2Proof.Machine

/-! FIB and FIC frame assembly (42_frame_fic.md): the words of the encodings, an equation for each case of the
commands, and the obligations of the family. -/

namespace Sys2Proof.Machine

/-! ### The encodings -/

/-- The fields of a word do not overlap, so joining them adds their values. -/
theorem toNat_append_eq_add {m n : Nat} (x : BitVec m) (y : BitVec n) :
    (x ++ y).toNat = x.toNat * 2 ^ n + y.toNat := by
  rw [BitVec.toNat_append, ← Nat.shiftLeft_add_eq_or_of_lt y.isLt, Nat.shiftLeft_eq]

/-- A format-I word is its opcode's word with `IMM8` in the low byte (30_encoding.md R81). -/
theorem formatI_eq_formatZ_add (opc imm : BitVec 8) : formatI opc imm = formatZ opc + imm.setWidth 32 := by
  refine BitVec.eq_of_toNat_eq ?_
  have hopc := opc.isLt
  have himm := imm.isLt
  simp only [formatI, formatZ, toNat_append_eq_add, BitVec.toNat_add, BitVec.toNat_setWidth, BitVec.toNat_ofNat]
  omega

/-- A format-F word is its opcode's word with `IDX` from bit 8 and `OFF` from bit 0 (30_encoding.md R81). -/
theorem formatF_eq_formatZ_add (opc : BitVec 8) (idx : BitVec 2) (off : BitVec 5) :
    formatF opc idx off = formatZ opc + (idx.setWidth 32 <<< 8) + off.setWidth 32 := by
  refine BitVec.eq_of_toNat_eq ?_
  have hopc := opc.isLt
  have hidx := idx.isLt
  have hoff := off.isLt
  simp only [formatF, formatZ, toNat_append_eq_add, BitVec.toNat_add, BitVec.toNat_shiftLeft, BitVec.toNat_setWidth,
    BitVec.toNat_ofNat, Nat.shiftLeft_eq]
  omega

/-! ### The commands, case by case -/

theorem legalFibCount_iff (n : BitVec 8) : legalFibCount n = true ↔ n.toNat = 3 ∨ n.toNat = 4 := by
  simp [legalFibCount]

/-- A write at an index the vector has is the checked write. -/
theorem setIfInBounds_eq_set {α : Type} {n i : Nat} (v : Vector α n) (x : α) (h : i < n) :
    v.setIfInBounds i x = v.set i x := by
  refine Vector.ext fun j hj => ?_
  rw [Vector.getElem_setIfInBounds, Vector.getElem_set]

section Commands

variable {s : State}

theorem execFiccfg_of_illegal_count {n : BitVec 8} (h : n.toNat ≠ 3 ∧ n.toNat ≠ 4) :
    execFiccfg n s = .next (s.raise .illegalOperand) := by
  have hn : ¬legalFibCount n = true := by rw [legalFibCount_iff]; omega
  rw [execFiccfg, if_neg hn]

/-- The operand is checked before the state, so this case is one of a legal count. -/
theorem execFiccfg_of_frame_begun {n : BitVec 8} (hn : legalFibCount n = true)
    (h : s.fstate ≠ .awaitingFib ∨ s.fibn ≠ 0) : execFiccfg n s = .next (s.raise .illegalState) := by
  rw [execFiccfg, if_pos hn, if_neg (by tauto)]

theorem execFiccfg_of_between_frames {n : BitVec 8} (hn : legalFibCount n = true) (hstate : s.fstate = .awaitingFib)
    (hfibn : s.fibn = 0) : execFiccfg n s = .next ({ s with fibcount := n.toNat }.respond 0) := by
  rw [execFiccfg, if_pos hn, if_pos ⟨hstate, hfibn⟩]

theorem execFiblatch_of_not_awaiting (h : s.fibcount = 0 ∨ s.fstate ≠ .awaitingFib) :
    execFiblatch s = .next (s.raise .illegalState) := by
  by_cases hcount : s.fibcount = 0
  · rw [execFiblatch, if_pos hcount]
  · rw [execFiblatch, if_neg hcount, if_pos (h.resolve_left hcount)]

theorem execFiblatch_of_too_few (hcount : s.fibcount ≠ 0) (hstate : s.fstate = .awaitingFib)
    (hfew : s.bbwr - s.bbrd < 256) : execFiblatch s = .next (s.raise .underflow) := by
  rw [execFiblatch, if_neg hcount, if_neg (not_not.2 hstate), if_pos hfew]

/-- With 256 unread bits the FIB ends within the written bits, so the read does not fault. -/
theorem execFiblatch_of_enough (hcount : s.fibcount ≠ 0) (hstate : s.fstate = .awaitingFib)
    (hbits : 256 ≤ s.bbwr - s.bbrd) :
    execFiblatch s = .next ({ s with
      hold := Memory.fibAt s.bit s.bbrd, bbrd := s.bbrd + 256, fstate := .fibComplete }.respond 0) := by
  rw [execFiblatch, if_neg hcount, if_neg (not_not.2 hstate), if_neg (not_lt.2 hbits), reading_of_le _ (by omega)]

theorem execFibcommit_of_not_latched (h : s.fstate ≠ .fibComplete) :
    execFibcommit s = .next (s.raise .illegalState) := by
  rw [execFibcommit, if_pos h]

theorem execFibcommit_of_latched (h : s.fstate = .fibComplete) (hfibn : s.fibn < 4) :
    execFibcommit s = .next (s.appendFib.respond (boolResult (fibValid s.cfg.crcXorout s.hold))) := by
  rw [execFibcommit, if_neg (not_not.2 h), if_pos hfibn]

theorem execFibrd_of_not_appended {idx : BitVec 2} (off : BitVec 5) (h : s.fibn ≤ idx.toNat) :
    execFibrd idx off s = .next (s.raise .illegalState) := by
  rw [execFibrd, if_pos h]

theorem execFibrd_of_appended {idx : BitVec 2} (off : BitVec 5) (h : idx.toNat < s.fibn) :
    execFibrd idx off s = .next (s.respond ((s.fibmem[idx.toNat][off.toNat]).setWidth 64)) := by
  rw [execFibrd, if_neg (not_le.2 h)]

/-- While `FIBN` names a record, the append writes that record and its flag (42_frame_fic.md R167 (c)). -/
theorem State.appendFib_of_fibn_lt (h : s.fibn < 4) :
    s.appendFib = { s with
      fibmem := s.fibmem.set s.fibn s.hold
      fibvalid := s.fibvalid.set s.fibn (fibValid s.cfg.crcXorout s.hold)
      framevalid := s.framevalid && fibValid s.cfg.crcXorout s.hold
      fibn := s.fibn + 1
      fstate := if s.fibn + 1 < s.fibcount then .awaitingFib else .frameComplete } := by
  rw [State.appendFib, setIfInBounds_eq_set _ _ h, setIfInBounds_eq_set _ _ h]

end Commands

/-! ### The obligations -/

/-- Settles O46: past the three checks the holding register is the FIB at the read cursor, each of whose bytes is the
field at its place. -/
theorem fiblatchTakesTheNextFib : Obligations.FiblatchTakesTheNextFib := by
  refine ⟨rfl, fun s => ?_⟩
  split_ifs with hawait hfew
  · exact execFiblatch_of_not_awaiting hawait
  · obtain ⟨hcount, hstate⟩ := not_or.1 hawait
    exact execFiblatch_of_too_few hcount (not_not.1 hstate) hfew
  · obtain ⟨hcount, hstate⟩ := not_or.1 hawait
    exact ⟨Memory.fibAt s.bit s.bbrd, Memory.fibAt_isField s.bit s.bbrd,
      execFiblatch_of_enough hcount (not_not.1 hstate) (not_lt.1 hfew)⟩

/-- Settles O44: the operand's check, then the state's. -/
theorem ficcfgSetsTheCount : Obligations.FiccfgSetsTheCount := by
  intro n s
  refine ⟨congrArg (Transaction.mk · 0 0) (formatI_eq_formatZ_add 0x30#8 n), ?_⟩
  split_ifs with hcount hbegun
  · exact execFiccfg_of_illegal_count hcount
  · exact execFiccfg_of_frame_begun ((legalFibCount_iff n).2 (by omega)) hbegun
  · obtain ⟨hstate, hfibn⟩ := not_or.1 hbegun
    exact execFiccfg_of_between_frames ((legalFibCount_iff n).2 (by omega)) (not_not.1 hstate) (not_not.1 hfibn)

/-- Settles O45: the meaning of FICNEW is this update, with no check before it. -/
theorem ficnewStartsAFrame : Obligations.FicnewStartsAFrame :=
  ⟨rfl, fun _ => rfl⟩

/-- Settles O47: the append is a write of one record and its flag, as `FIBN` names a record. -/
theorem fibcommitAppendsTheLatchedFib : Obligations.FibcommitAppendsTheLatchedFib := by
  refine ⟨rfl, fun s => ?_⟩
  by_cases hstate : s.fstate = .fibComplete
  · rw [if_neg (not_not.2 hstate)]
    intro hfibn v
    have hcommit := execFibcommit_of_latched hstate hfibn
    rwa [State.appendFib_of_fibn_lt hfibn] at hcommit
  · rw [if_pos hstate]
    exact execFibcommit_of_not_latched hstate

/-- Settles O48: the count of appended FIBs decides between the two answers. -/
theorem fibrdReturnsTheByte : Obligations.FibrdReturnsTheByte := by
  intro idx off s
  refine ⟨congrArg (Transaction.mk · 0 0) (formatF_eq_formatZ_add 0x34#8 idx off), ?_⟩
  split_ifs with hidx
  · exact execFibrd_of_not_appended off hidx
  · exact execFibrd_of_appended off (not_le.1 hidx)

end Sys2Proof.Machine

/-! MSC frame parsing (43_frame_msc.md): the words of the encodings, an equation for each case of the commands, and
the obligations of the family. -/

namespace Sys2Proof.Machine

/-! ### The encodings -/

/-- A format-C word is its opcode's word with `HC` at bit 8 and `ID` in the low byte (30_encoding.md R81). -/
theorem formatC_eq_formatZ_add (opc : BitVec 8) (hc : Bool) (id : BitVec 8) :
    formatC opc hc id = formatZ opc + (if hc then 256#32 else 0#32) + id.setWidth 32 := by
  refine BitVec.eq_of_toNat_eq ?_
  have hopc := opc.isLt
  have hid := id.isLt
  cases hc <;>
    simp only [formatC, formatZ, toNat_append_eq_add, BitVec.toNat_add, BitVec.toNat_setWidth, BitVec.toNat_ofNat,
      BitVec.toNat_ofBool, Bool.toNat_true, Bool.toNat_false, Bool.false_eq_true, if_true, if_false] <;>
    omega

/-! ### The checks -/

theorem legalId_iff (p : Params) (id : BitVec 8) : legalId p id = true ↔ id.toNat < p.nsubch := by
  simp [legalId]

/-- MSCCFG's length check: a payload with a CRC is a whole number of bytes (43_frame_msc.md R181). -/
theorem crcOfPartialByte_iff (hc : Bool) (plen : Operand) :
    (hc && !wholeBytes plen) = true ↔ hc = true ∧ plen.toNat % 8 ≠ 0 := by
  simp [wholeBytes]

/-! ### The commands, case by case -/

section Commands

variable {s : State} {id : BitVec 8}

theorem execMsccfg_of_illegal {hc : Bool} {plen : Operand}
    (h : s.cfg.nsubch ≤ id.toNat ∨ (hc = true ∧ plen.toNat % 8 ≠ 0)) :
    execMsccfg hc id plen s = .next (s.raise .illegalOperand) := by
  by_cases hid : legalId s.cfg id = true
  · have hlen := h.resolve_left (not_le.2 ((legalId_iff _ _).1 hid))
    rw [execMsccfg, if_pos hid, if_pos ((crcOfPartialByte_iff _ _).2 hlen)]
  · rw [execMsccfg, if_neg hid]

theorem execMsccfg_of_legal {hc : Bool} {plen : Operand} (hid : id.toNat < s.cfg.nsubch)
    (hlen : ¬(hc = true ∧ plen.toNat % 8 ≠ 0)) :
    execMsccfg hc id plen s
      = .next ({ s with subch := subchWrite s.subch id.toNat ⟨true, plen, hc⟩ }.respond 0) := by
  rw [execMsccfg, if_pos ((legalId_iff _ _).2 hid), if_neg (mt (crcOfPartialByte_iff _ _).1 hlen)]

theorem execMscparse_of_illegal_id (h : s.cfg.nsubch ≤ id.toNat) :
    execMscparse id s = .next (s.raise .illegalOperand) := by
  rw [execMscparse, if_neg (mt (legalId_iff _ _).1 (not_lt.2 h))]

theorem execMscparse_of_legal_id (h : id.toNat < s.cfg.nsubch) :
    execMscparse id s = mscParseRow id (subchRead s.subch id.toNat) s := by
  rw [execMscparse, if_pos ((legalId_iff _ _).2 h)]

variable {row : SubchRow}

theorem mscParseRow_of_no_row_or_view (h : row.cfgd = false ∨ s.view.valid = false) :
    mscParseRow id row s = .next (s.raise .illegalState) := by
  by_cases hrow : row.cfgd = false
  · simp [mscParseRow, hrow]
  · simp [mscParseRow, hrow, h.resolve_left hrow]

theorem mscParseRow_of_short_view (hrow : row.cfgd = true) (hview : s.view.valid = true)
    (hshort : s.view.len < row.plen.toNat) : mscParseRow id row s = .next (s.raise .lengthMismatch) := by
  simp [mscParseRow, hrow, hview, hshort]

/-- Past the three checks the verdict decides the frame's validity flag and the result. -/
theorem mscParseRow_of_payload (hrow : row.cfgd = true) (hview : s.view.valid = true)
    (hlen : row.plen.toNat ≤ s.view.len) :
    mscParseRow id row s = mscVerdict s row fun v =>
      .next ({ s with msc := ⟨true, id, s.view.base, row.plen.toNat, row.hc, v⟩ }.respond (boolResult v)) := by
  simp [mscParseRow, hrow, hview, hlen]

end Commands

/-! ### The verdict -/

/-- The comparison is of the CRC of the payload's bytes with the 16-bit field after the payload (43_frame_msc.md
R182). -/
theorem mscCrcMatches_iff (xorout : Crc) (m : Memory) (base plen : Nat) :
    ∃ (d : List Byte) (c : Crc), IsBytes m base (plen / 8) d ∧ IsField m (base + plen) 16 c ∧
      (mscCrcMatches xorout m base plen = true ↔ crc16 xorout d = c) :=
  ⟨_, _, Memory.bytesAt_isBytes m base (plen / 8), Memory.readBits_isField m (base + plen) 16 le_rfl, beq_iff_eq⟩

/-- Where the view is within the written bits, so are the payload and its CRC field, and the read does not fault. -/
theorem mscVerdict_answers {s : State} (row : SubchRow) (after : Bool → Result)
    (hend : s.view.base + s.view.len ≤ s.bbwr) :
    ∃ v : Bool, mscVerdict s row after = after v ∧
      (if row.hc = false then v = true
      else if s.view.len < row.plen.toNat + 16 then v = false
      else ∃ (d : List Byte) (c : Crc), IsBytes s.bit s.view.base (row.plen.toNat / 8) d ∧
        IsField s.bit (s.view.base + row.plen.toNat) 16 c ∧ (v = true ↔ crc16 s.cfg.crcXorout d = c)) := by
  rcases mscVerdict_cases s row after with
    ⟨hnone, e⟩ | ⟨hcrc, hcut, e⟩ | ⟨-, hfits, hpast, -⟩ | ⟨hcrc, hfits, -, e⟩
  · exact ⟨true, e, by rw [if_pos hnone]⟩
  · exact ⟨false, e, by rw [if_neg (by simp [hcrc]), if_pos hcut]⟩
  · omega
  · refine ⟨_, e, ?_⟩
    rw [if_neg (by simp [hcrc]), if_neg (not_lt.2 hfits)]
    exact mscCrcMatches_iff s.cfg.crcXorout s.bit s.view.base row.plen.toNat

/-! ### The obligations -/

/-- Settles O50: past the check the table is written at one id, and over a canonical table a read gives that row there
and the old one elsewhere. -/
theorem msccfgWritesTheRow : Obligations.MsccfgWritesTheRow := by
  intro hc id plen s hwf
  refine ⟨congrArg (Transaction.mk · plen 0) (formatC_eq_formatZ_add 0x38#8 hc id), ?_⟩
  split_ifs with hillegal
  · exact execMsccfg_of_illegal hillegal
  · obtain ⟨hid, hlen⟩ := not_or.1 hillegal
    refine ⟨_, execMsccfg_of_legal (not_le.1 hid) hlen, ?_, fun id' hne => ?_⟩
    · rw [subchRead_subchWrite _ _ _ _ hwf, if_pos rfl]
    · rw [subchRead_subchWrite _ _ _ _ hwf, if_neg hne]

/-- Settles O51: the checks in order; past them the view's invariant keeps the verdict's read within the written
bits. -/
theorem mscparseRecordsTheFrame : Obligations.MscparseRecordsTheFrame := by
  intro id s row
  refine ⟨congrArg (Transaction.mk · 0 0) (formatI_eq_formatZ_add 0x39#8 id), ?_⟩
  by_cases hid : s.cfg.nsubch ≤ id.toNat
  · rw [if_pos hid]
    exact execMscparse_of_illegal_id hid
  have hexec : exec (.mscparse id) s = mscParseRow id row s := execMscparse_of_legal_id (not_le.1 hid)
  rw [if_neg hid, hexec]
  by_cases hstate : row.cfgd = false ∨ s.view.valid = false
  · rw [if_pos hstate]
    exact mscParseRow_of_no_row_or_view hstate
  obtain ⟨hrow, hview⟩ : row.cfgd = true ∧ s.view.valid = true := by simpa using hstate
  rw [if_neg hstate]
  by_cases hshort : s.view.len < row.plen.toNat
  · rw [if_pos hshort]
    exact mscParseRow_of_short_view hrow hview hshort
  · rw [if_neg hshort, mscParseRow_of_payload hrow hview (not_lt.1 hshort)]
    exact fun hinv => mscVerdict_answers row _ (hinv.end_le_bbwr hview)

end Sys2Proof.Machine

/-! Status registers (44_system.md): the two answers of RDSR, the bounds of the twelve values under the invariants,
their values after reset, and the obligation of the family. -/

namespace Sys2Proof.Machine

/-! ### The command, case by case -/

theorem legalSr_iff (n : BitVec 8) : legalSr n = true ↔ n.toNat ≤ 11 := by
  simp [legalSr]

theorem exec_rdsr_of_no_register {n : BitVec 8} (s : State) (h : 11 < n.toNat) :
    exec (.rdsr n) s = .next (s.raise .illegalOperand) :=
  if_neg (mt (legalSr_iff n).1 (not_le.2 h))

theorem exec_rdsr_of_register {n : BitVec 8} (s : State) (h : n.toNat ≤ 11) :
    exec (.rdsr n) s = .next (s.respond (s.statusRegister n.toNat)) :=
  if_pos ((legalSr_iff n).2 h)

/-! ### The bounds of the values -/

/-- The view's end and cursor are bounded with or without a view, since an absent one is zero (10_state.md R27). -/
theorem ViewInv.bounds {s : State} (h : ViewInv s) :
    s.view.base + s.view.len ≤ s.bbwr ∧ s.view.rd ≤ s.view.len := by
  cases hv : s.view.valid with
  | true => exact h.1 hv
  | false => simp [h.2 hv, View.none]

/-- The MSC payload ends within the written bits, since an absent record is zero (10_state.md R38). -/
theorem MscInv.end_le_bbwr {s : State} (h : MscInv s) : s.msc.base + s.msc.len ≤ s.bbwr := by
  cases hp : s.msc.present with
  | true => exact h.1 hp
  | false => simp [h.2 hp, MscRecord.empty]

theorem FicInv.fibcount_le {s : State} (h : FicInv s) : s.fibcount ≤ 4 := by
  rcases h.count_legal with h0 | h3 | h4 <;> omega

theorem FState.number_lt (f : FState) : f.number < 4 := by
  cases f <;> decide

/-- The fields of `FICSTAT` end at bit 9: `FIBN` is at most 4, so it keeps to its three bits (10_state.md R41). -/
theorem FicInv.ficStat_lt {s : State} (h : FicInv s) : s.ficStat < 2 ^ 10 := by
  have hstate := s.fstate.number_lt
  have hfibn : s.fibn ≤ 4 := h.fibn_le.trans h.fibcount_le
  have h0 := s.fibvalid[0].toNat_lt
  have h1 := s.fibvalid[1].toNat_lt
  have h2 := s.fibvalid[2].toNat_lt
  have h3 := s.fibvalid[3].toNat_lt
  have hframe := s.framevalid.toNat_lt
  unfold State.ficStat
  omega

/-- The fields of `MSCSTAT` end at bit 15, in every state (10_state.md R41). -/
theorem State.mscStat_lt (s : State) : s.mscStat < 2 ^ 16 := by
  have hpresent := s.msc.present.toNat_lt
  have hcrc := s.msc.hasCrc.toNat_lt
  have hvalid := s.msc.valid.toNat_lt
  have hid := s.msc.subch.isLt
  unfold State.mscStat
  omega

/-- A status register loses nothing in its 64 bits: the positions and lengths are bounded by the write cursor, the
flags and counts by their fields (log entry 8). -/
theorem Inv.statusValue_lt {s : State} (hi : Inv s) (n : Nat) : s.statusValue n < 2 ^ 64 := by
  have hbbwr := hi.bbwr_lt
  have hbbrd := hi.buffer.1
  obtain ⟨hview, hviewRd⟩ := hi.view.bounds
  have hmsc := hi.msc.end_le_bbwr
  unfold State.statusValue
  split
  case h_1 =>
    have hbytes := hi.params.1.2
    unfold Params.capBits
    omega
  case h_4 => exact (Bool.toNat_lt _).trans (by decide)
  case h_8 => exact hi.fic.fibcount_le.trans_lt (by decide)
  case h_9 => exact hi.fic.ficStat_lt.trans (by decide)
  case h_10 => exact s.mscStat_lt.trans (by decide)
  all_goals omega

/-! ### The values after reset -/

/-- After reset the capacity and `FRAMEVALID`, bit 9 of `FICSTAT`, are all that reads non-zero (10_state.md R44). -/
theorem State.resetWith_statusValue (p : Params) (n : Nat) :
    (State.resetWith p).statusValue n = if n = 0 then 8 * p.capBytes else if n = 8 then 0x200 else 0 := by
  unfold State.statusValue
  split
  case h_13 => rw [if_neg ‹¬n = 0›, if_neg ‹¬n = 8›]
  all_goals rfl

/-- The same as the command's result, with the register named by its 8-bit number. -/
theorem State.resetWith_statusRegister (p : Params) (n : BitVec 8) :
    (State.resetWith p).statusRegister n.toNat
      = if n = 0 then BitVec.ofNat 64 (8 * p.capBytes) else if n = 8 then 0x200 else 0 := by
  have hzero : n.toNat = 0 ↔ n = 0 := BitVec.toNat_inj (y := 0#8)
  have height : n.toNat = 8 ↔ n = 8 := BitVec.toNat_inj (y := 8#8)
  rw [State.statusRegister, State.resetWith_statusValue]
  simp only [hzero, height]
  split_ifs <;> rfl

/-! ### The obligation -/

/-- Settles O53: a number above 11 fails the check; one up to 11 answers its register, whose value the invariants
bound and reset fixes. -/
theorem rdsrReturnsTheRegister : Obligations.RdsrReturnsTheRegister := by
  refine ⟨fun n => congrArg (Transaction.mk · 0 0) (formatI_eq_formatZ_add 0x01#8 n),
    fun n s h => exec_rdsr_of_no_register s h, fun s => ?_, fun p n h => ?_⟩
  · have register (n : BitVec 8) (h : n.toNat ≤ 11) :
        exec (.rdsr n) s = .next { s with rsp := some ⟨.ok, BitVec.ofNat 64 (s.statusValue n.toNat)⟩ } ∧
          (Inv s → s.statusValue n.toNat < 2 ^ 64) :=
      ⟨exec_rdsr_of_register s h, fun hi => hi.statusValue_lt _⟩
    exact ⟨register 0 (by decide), register 1 (by decide), register 2 (by decide), register 3 (by decide),
      register 4 (by decide), register 5 (by decide), register 6 (by decide), register 7 (by decide),
      register 8 (by decide), register 9 (by decide), register 10 (by decide), register 11 (by decide)⟩
  · rw [exec_rdsr_of_register _ h, State.resetWith_statusRegister]
    rfl

end Sys2Proof.Machine

/-! Statuses and errors (60_exceptions.md): every answer of a command is an `OK`, or an error of R221 for the cause its
row names and with no other change. Both obligations of the family follow from this one fact. -/

namespace Sys2Proof.Machine

/-! ### Answers with a cause -/

/-- Every next state of the result `r` of command `i` in state `s` has an `OK` response, or is `s` with an error raised
for the cause that 60_exceptions.md R221 names. -/
def AnswersWithCause (i : Instr) (s : State) (r : Result) : Prop :=
  ∀ t, r = .next t →
    (∃ v, t.rsp = some ⟨.ok, v⟩) ∨ ∃ st, st ≠ Status.ok ∧ statusCause st i s ∧ t = s.raise st

section Answers

variable {i : Instr} {s : State}

theorem answersWithCause_raise {st : Status} (hst : st ≠ .ok) (hcause : statusCause st i s) :
    AnswersWithCause i s (.next (s.raise st)) := by
  intro t h
  cases h
  exact .inr ⟨st, hst, hcause, rfl⟩

theorem answersWithCause_respond (u : State) (v : Operand) : AnswersWithCause i s (.next (u.respond v)) := by
  intro t h
  cases h
  exact .inl ⟨v, rfl⟩

theorem answersWithCause_fault (f : Fault) : AnswersWithCause i s (.fault f) := nofun

/-! ### The shared checks -/

theorem viewMissing_of_window {target : Target} (h : s.window target = none) : viewMissing s target := by
  obtain ⟨rfl, hv⟩ := window_eq_none h
  exact hv

theorem readPastEnd_of_window {target : Target} {win : Window} {n : Nat} (hwin : s.window target = some win)
    (h : win.limit < win.rd + n) : readPastEnd s n target := by
  cases target with
  | buffer =>
    cases hwin
    exact h
  | view =>
    by_cases hv : s.view.valid = true
    · rw [window_view_of_valid hv] at hwin
      cases hwin
      exact h
    · simp [window_view_of_invalid (Bool.eq_false_iff.2 hv)] at hwin

/-- The shared read of BBREAD and BBPEEK, for a command whose rows of R221 name its three errors. -/
theorem fieldRead_answersWithCause {target : Target} {width : BitVec 8} {after : Operand → Result}
    (hoperand : width.toNat < 1 ∨ 64 < width.toNat → operandCause s i)
    (hstate : viewMissing s target → stateCause s i)
    (hunderflow : readPastEnd s width.toNat target → underflowCause s i)
    (hafter : ∀ v, AnswersWithCause i s (after v)) : AnswersWithCause i s (fieldRead target width s after) := by
  rcases fieldRead_cases target width s after with
    ⟨hw, e⟩ | ⟨-, hwin, e⟩ | ⟨win, -, hwin, ⟨hfew, e⟩ | ⟨-, -, e⟩ | ⟨-, -, v, -, e⟩⟩ <;> rw [e]
  · have hout : width.toNat < 1 ∨ 64 < width.toNat :=
      not_not.1 fun h => by simp [legalWidth_of_not_outside h] at hw
    exact answersWithCause_raise (by decide) (hoperand hout)
  · exact answersWithCause_raise (by decide) (hstate (viewMissing_of_window hwin))
  · exact answersWithCause_raise (by decide) (hunderflow (readPastEnd_of_window hwin hfew))
  · exact answersWithCause_fault _
  · exact hafter v

/-- The shared checks of CRCCOMP and CRCVERIFY, for a command whose rows of R221 name its two errors. -/
theorem crcCommand_answersWithCause {start length : Operand} {result : Crc → Operand}
    (hoperand : length.toNat % 8 ≠ 0 → operandCause s i)
    (hrange : s.bbwr < start.toNat + length.toNat → rangeCause s i) :
    AnswersWithCause i s (crcCommand start length s result) := by
  rcases crcCommand_cases start length s result with ⟨hpart, e⟩ | ⟨-, hout, e⟩ | ⟨-, -, e⟩ <;> rw [e]
  · exact answersWithCause_raise (by decide) (hoperand hpart)
  · exact answersWithCause_raise (by decide) (hrange hout)
  · exact answersWithCause_respond _ _

theorem mscVerdict_answersWithCause {row : SubchRow} {after : Bool → Result}
    (hafter : ∀ v, AnswersWithCause i s (after v)) : AnswersWithCause i s (mscVerdict s row after) := by
  rcases mscVerdict_cases s row after with ⟨-, e⟩ | ⟨-, -, e⟩ | ⟨-, -, -, e⟩ | ⟨-, -, -, e⟩ <;> rw [e]
  · exact hafter _
  · exact hafter _
  · exact answersWithCause_fault _
  · exact hafter _

end Answers

/-! ### The commands -/

section Commands

variable (s : State)

theorem exec_rdsr_answersWithCause (n : BitVec 8) : AnswersWithCause (.rdsr n) s (exec (.rdsr n) s) := by
  by_cases hn : n.toNat ≤ 11
  · rw [exec_rdsr_of_register s hn]
    exact answersWithCause_respond _ _
  · rw [exec_rdsr_of_no_register s (not_le.1 hn)]
    exact answersWithCause_raise (by decide) (not_le.1 hn)

theorem execBbwrite_answersWithCause (w : BitVec 8) (v : Operand) :
    AnswersWithCause (.bbwrite w v) s (execBbwrite w v s) := by
  by_cases hout : w.toNat < 1 ∨ 64 < w.toNat
  · rw [execBbwrite_of_illegal_width v (legalWidth_of_outside hout)]
    exact answersWithCause_raise (by decide) hout
  have hw := legalWidth_of_not_outside hout
  by_cases hfull : s.cfg.capBits < s.bbwr + w.toNat
  · rw [execBbwrite_of_no_room v hw hfull]
    exact answersWithCause_raise (by decide) hfull
  · rw [execBbwrite_of_room v hw (not_lt.1 hfull)]
    exact answersWithCause_respond _ _

theorem execBbread_answersWithCause (target : Target) (w : BitVec 8) :
    AnswersWithCause (.bbread target w) s (execBbread target w s) :=
  fieldRead_answersWithCause id id id fun v => answersWithCause_respond (s.advance w.toNat target) v

theorem execBbpeek_answersWithCause (target : Target) (w : BitVec 8) :
    AnswersWithCause (.bbpeek target w) s (execBbpeek target w s) :=
  fieldRead_answersWithCause id id id (answersWithCause_respond s)

theorem execBbrem_answersWithCause (target : Target) :
    AnswersWithCause (.bbrem target) s (execBbrem target s) := by
  rcases hwin : s.window target with _ | win
  · rw [execBbrem_of_no_view hwin]
    exact answersWithCause_raise (by decide) (viewMissing_of_window hwin)
  · obtain ⟨v, hanswer, -⟩ := execBbrem_of_window hwin
    rw [hanswer]
    exact answersWithCause_respond _ _

theorem execBbslice_answersWithCause (start length : Operand) :
    AnswersWithCause (.bbslice start length) s (execBbslice start length s) := by
  by_cases hout : s.bbwr < start.toNat + length.toNat
  · rw [execBbslice_of_outside hout]
    exact answersWithCause_raise (by decide) hout
  · rw [execBbslice_of_within (not_lt.1 hout)]
    exact answersWithCause_respond _ _

theorem execCrccomp_answersWithCause (start length : Operand) :
    AnswersWithCause (.crccomp start length) s (execCrccomp start length s) :=
  crcCommand_answersWithCause id id

theorem execCrcverify_answersWithCause (exp : Crc) (start length : Operand) :
    AnswersWithCause (.crcverify exp start length) s (execCrcverify exp start length s) :=
  crcCommand_answersWithCause id id

theorem execFiccfg_answersWithCause (n : BitVec 8) : AnswersWithCause (.ficcfg n) s (execFiccfg n s) := by
  by_cases hcount : n.toNat ≠ 3 ∧ n.toNat ≠ 4
  · rw [execFiccfg_of_illegal_count hcount]
    exact answersWithCause_raise (by decide) hcount
  have hn : legalFibCount n = true := (legalFibCount_iff n).2 (by omega)
  by_cases hbegun : s.fstate ≠ .awaitingFib ∨ s.fibn ≠ 0
  · rw [execFiccfg_of_frame_begun hn hbegun]
    exact answersWithCause_raise (by decide) hbegun
  · obtain ⟨hstate, hfibn⟩ := not_or.1 hbegun
    rw [execFiccfg_of_between_frames hn (not_not.1 hstate) (not_not.1 hfibn)]
    exact answersWithCause_respond _ _

theorem execFiblatch_answersWithCause : AnswersWithCause .fiblatch s (execFiblatch s) := by
  by_cases hawait : s.fibcount = 0 ∨ s.fstate ≠ .awaitingFib
  · rw [execFiblatch_of_not_awaiting hawait]
    exact answersWithCause_raise (by decide) hawait
  obtain ⟨hcount, hstate⟩ := not_or.1 hawait
  by_cases hfew : s.bbwr - s.bbrd < 256
  · rw [execFiblatch_of_too_few hcount (not_not.1 hstate) hfew]
    exact answersWithCause_raise (by decide) hfew
  · rw [execFiblatch_of_enough hcount (not_not.1 hstate) (not_lt.1 hfew)]
    exact answersWithCause_respond _ _

theorem execFibcommit_answersWithCause : AnswersWithCause .fibcommit s (execFibcommit s) := by
  by_cases hstate : s.fstate = .fibComplete
  · by_cases hfibn : s.fibn < 4
    · rw [execFibcommit_of_latched hstate hfibn]
      exact answersWithCause_respond _ _
    · rw [execFibcommit, if_neg (not_not.2 hstate), if_neg hfibn]
      exact answersWithCause_fault _
  · rw [execFibcommit_of_not_latched hstate]
    exact answersWithCause_raise (by decide) hstate

theorem execFibrd_answersWithCause (idx : BitVec 2) (off : BitVec 5) :
    AnswersWithCause (.fibrd idx off) s (execFibrd idx off s) := by
  by_cases hidx : s.fibn ≤ idx.toNat
  · rw [execFibrd_of_not_appended off hidx]
    exact answersWithCause_raise (by decide) hidx
  · rw [execFibrd_of_appended off (not_le.1 hidx)]
    exact answersWithCause_respond _ _

theorem execMsccfg_answersWithCause (hc : Bool) (id : BitVec 8) (plen : Operand) :
    AnswersWithCause (.msccfg hc id plen) s (execMsccfg hc id plen s) := by
  by_cases hillegal : s.cfg.nsubch ≤ id.toNat ∨ (hc = true ∧ plen.toNat % 8 ≠ 0)
  · rw [execMsccfg_of_illegal hillegal]
    exact answersWithCause_raise (by decide) hillegal
  · obtain ⟨hid, hlen⟩ := not_or.1 hillegal
    rw [execMsccfg_of_legal (not_le.1 hid) hlen]
    exact answersWithCause_respond _ _

theorem execMscparse_answersWithCause (id : BitVec 8) :
    AnswersWithCause (.mscparse id) s (execMscparse id s) := by
  by_cases hid : s.cfg.nsubch ≤ id.toNat
  · rw [execMscparse_of_illegal_id hid]
    exact answersWithCause_raise (by decide) hid
  rw [execMscparse_of_legal_id (not_le.1 hid)]
  by_cases hstate : (subchRead s.subch id.toNat).cfgd = false ∨ s.view.valid = false
  · rw [mscParseRow_of_no_row_or_view hstate]
    exact answersWithCause_raise (by decide) hstate
  obtain ⟨hrow, hview⟩ : (subchRead s.subch id.toNat).cfgd = true ∧ s.view.valid = true := by simpa using hstate
  by_cases hshort : s.view.len < (subchRead s.subch id.toNat).plen.toNat
  · rw [mscParseRow_of_short_view hrow hview hshort]
    exact answersWithCause_raise (by decide) hshort
  · rw [mscParseRow_of_payload hrow hview (not_lt.1 hshort)]
    exact mscVerdict_answersWithCause fun _ => answersWithCause_respond _ _

/-- What any command can answer (60_exceptions.md R221, R226). BBRESET and FICNEW are named by
no error's row, and answer only `OK`. -/
theorem exec_answersWithCause (i : Instr) : AnswersWithCause i s (exec i s) := by
  cases i with
  | rdsr n => exact exec_rdsr_answersWithCause s n
  | bbwrite w v => exact execBbwrite_answersWithCause s w v
  | bbread target w => exact execBbread_answersWithCause s target w
  | bbpeek target w => exact execBbpeek_answersWithCause s target w
  | bbrem target => exact execBbrem_answersWithCause s target
  | bbreset => exact answersWithCause_respond _ 0
  | bbslice start length => exact execBbslice_answersWithCause s start length
  | crccomp start length => exact execCrccomp_answersWithCause s start length
  | crcverify exp start length => exact execCrcverify_answersWithCause s exp start length
  | ficcfg n => exact execFiccfg_answersWithCause s n
  | ficnew => exact answersWithCause_respond _ 0
  | fiblatch => exact execFiblatch_answersWithCause s
  | fibcommit => exact execFibcommit_answersWithCause s
  | fibrd idx off => exact execFibrd_answersWithCause s idx off
  | msccfg hc id plen => exact execMsccfg_answersWithCause s hc id plen
  | mscparse id => exact execMscparse_answersWithCause s id

end Commands

/-- The status of a command's response has its cause. -/
theorem exec_statusCause {i : Instr} {s t : State} {r : Response} (h : exec i s = .next t) (hr : t.rsp = some r) :
    statusCause r.status i s := by
  rcases exec_answersWithCause s i t h with ⟨v, hok⟩ | ⟨st, -, hcause, rfl⟩
  · cases hok.symm.trans hr
    exact trivial
  · cases hr
    exact hcause

/-! ### Transactions -/

/-- Decoding fails exactly on a word that no row of the opcode map matches (30_encoding.md R83). -/
theorem decode_error_iff (tr : Transaction) :
    (∃ e, decode tr = .error e) ↔ ∀ row ∈ opcodeTable, tr.cw &&& row.mask ≠ row.mtch := by
  have noRow : opcodeTable.find? (fun row => row.accepts tr.cw) = none ↔
      ∀ row ∈ opcodeTable, tr.cw &&& row.mask ≠ row.mtch := by
    simp only [List.find?_eq_none, OpcodeRow.accepts, beq_iff_eq, ne_eq]
  rw [← noRow, decode]
  cases opcodeTable.find? (fun row => row.accepts tr.cw) <;> simp

/-- A step on a waiting transaction: the word is none and is answered `ILLEGAL_CMD`, or its command runs. -/
theorem step_command_next {s t : State} {tr : Transaction} {rest : List Event} (hin : s.inbox = .command tr :: rest)
    (h : step s = .next t) :
    ((∃ e, decode tr = .error e) ∧ t = { s with inbox := rest }.raise .illegalCmd) ∨
      ∃ i, decode tr = .ok i ∧ exec i { s with inbox := rest } = .next t := by
  rw [step, hin] at h
  cases hdec : decode tr with
  | error e =>
    simp only [hdec, illegalCommand] at h
    cases h
    exact .inl ⟨⟨e, rfl⟩, rfl⟩
  | ok i =>
    simp only [hdec] at h
    exact .inr ⟨i, rfl, h⟩

/-! ### The obligations -/

/-- Settles O18: an illegal word and a command's error both raise, and a raise is this update; every other answer is
`OK`. -/
theorem failedCommandLeavesNoTrace : Obligations.FailedCommandLeavesNoTrace := by
  intro s t tr rest hin hstep
  rcases step_command_next hin hstep with ⟨-, rfl⟩ | ⟨i, -, hexec⟩
  · exact ⟨_, rfl, fun _ => ⟨rfl, rfl⟩⟩
  · rcases exec_answersWithCause _ i t hexec with ⟨v, hok⟩ | ⟨st, -, -, rfl⟩
    · exact ⟨_, hok, fun hne => absurd rfl hne⟩
    · exact ⟨_, rfl, fun _ => ⟨rfl, rfl⟩⟩

/-- Settles O20: no command has a cause for `ILLEGAL_CMD`, so it comes from the decoder alone; every other status has
the cause found above. -/
theorem statusCodesHaveTheirCauses : Obligations.StatusCodesHaveTheirCauses := by
  refine ⟨fun s t tr rest r hin hstep hr => ?_, fun _ _ _ _ => exec_statusCause,
    rfl, rfl, rfl, rfl, rfl, rfl, rfl, rfl⟩
  rw [← decode_error_iff]
  rcases step_command_next hin hstep with ⟨herror, rfl⟩ | ⟨i, hdec, hexec⟩
  · cases hr
    exact iff_of_true rfl herror
  · have hcause := exec_statusCause hexec hr
    refine iff_of_false (fun hcmd => ?_) fun ⟨e, he⟩ => ?_
    · rw [hcmd] at hcause
      exact hcause
    · cases hdec.symm.trans he

end Sys2Proof.Machine

/-! Encoding and decoding (30_encoding.md): a word is of one row at most, a row's word is its fixed bits and its
fields, and the obligations of the decoder and the encoder. -/

namespace Sys2Proof.Machine

/-! ### The rows of the opcode map -/

/-- `OPC` of a row (30_encoding.md R84). -/
def rowOpcode (r : OpcodeRow) : BitVec 8 := r.mtch.extractLsb' 24 8

theorem opcodeTable_opcodes_nodup : (opcodeTable.map rowOpcode).Nodup := by decide

theorem opcodeTable_masks :
    ∀ r ∈ opcodeTable, r.mask.extractLsb' 24 8 = 0xFF#8 ∧ r.mtch &&& r.mask = r.mtch := by decide

/-- A word of a row has the row's opcode, as every mask holds all of `cw[31:24]`. -/
theorem opcode_of_accepted {r : OpcodeRow} (hr : r ∈ opcodeTable) {cw : Word} (h : cw &&& r.mask = r.mtch) :
    cw.extractLsb' 24 8 = rowOpcode r := by
  obtain ⟨hmask, -⟩ := opcodeTable_masks r hr
  have hall : 0xFF#8 = BitVec.allOnes 8 := rfl
  rw [rowOpcode, ← h, BitVec.extractLsb'_and, hmask, hall, BitVec.and_allOnes]

/-- No word is of two rows: the sixteen opcodes are distinct (30_encoding.md R83). -/
theorem row_of_accepted_unique {r r' : OpcodeRow} (hr : r ∈ opcodeTable) (hr' : r' ∈ opcodeTable) {cw : Word}
    (h : cw &&& r.mask = r.mtch) (h' : cw &&& r'.mask = r'.mtch) : r = r' :=
  List.inj_on_of_nodup_map opcodeTable_opcodes_nodup hr hr'
    ((opcode_of_accepted hr h).symm.trans (opcode_of_accepted hr' h'))

/-- A word of a row decodes to the row's command, whatever the operands. -/
theorem decode_of_accepted {r : OpcodeRow} (hr : r ∈ opcodeTable) {t : Transaction} (h : t.cw &&& r.mask = r.mtch) :
    decode t = .ok (r.build t) := by
  have found : (opcodeTable.find? fun r => r.accepts t.cw).isSome :=
    List.find?_isSome.2 ⟨r, hr, beq_iff_eq.2 h⟩
  obtain ⟨r', hfind⟩ := Option.isSome_iff_exists.1 found
  have accepted := List.find?_some hfind
  rw [row_of_accepted_unique hr (List.mem_of_find?_eq_some hfind) h (beq_iff_eq.1 accepted), decode, hfind]

/-- The same by the row's place in the table, with the command the row reads. -/
theorem decode_of_row (k : Fin 16) {t : Transaction} {i : Instr}
    (hfixed : t.cw &&& (opcodeTable[k.val]'k.isLt).mask = (opcodeTable[k.val]'k.isLt).mtch)
    (hbuild : (opcodeTable[k.val]'k.isLt).build t = i) : decode t = .ok i :=
  (decode_of_accepted (List.getElem_mem _) hfixed).trans (congrArg Except.ok hbuild)

/-- A command comes from one row, whose fixed bits the word has. -/
theorem row_of_decode {t : Transaction} {i : Instr} (h : decode t = .ok i) :
    ∃ r ∈ opcodeTable, t.cw &&& r.mask = r.mtch ∧ r.build t = i := by
  by_cases hrow : ∀ r ∈ opcodeTable, t.cw &&& r.mask ≠ r.mtch
  · obtain ⟨e, he⟩ := (decode_error_iff t).2 hrow
    cases he.symm.trans h
  · push Not at hrow
    obtain ⟨r, hr, hacc⟩ := hrow
    exact ⟨r, hr, hacc, Except.ok.inj ((decode_of_accepted hr hacc).symm.trans h)⟩

/-- A word of no row is rejected, with the reason that its opcode tells (30_encoding.md R85 (a), (b)). -/
theorem decode_of_no_row {t : Transaction} (h : ∀ r ∈ opcodeTable, t.cw &&& r.mask ≠ r.mtch) :
    decode t = .error (if opcodeListed t.cw then .reservedBitSet else .unknownOpcode) := by
  have hfind : opcodeTable.find? (fun r => r.accepts t.cw) = none :=
    List.find?_eq_none.2 fun r hr => by simpa [OpcodeRow.accepts] using h r hr
  rw [decode, hfind]

theorem opcodeListed_iff (cw : Word) : opcodeListed cw = true ↔ cw.extractLsb' 24 8 ∈ opcodeTable.map rowOpcode := by
  simp [opcodeListed, rowOpcode]

/-! ### The fields of the encoder's words -/

@[simp] theorem fieldLow8_formatW (opc : BitVec 8) (t : Target) (width : BitVec 8) :
    fieldLow8 (formatW opc t width) = width :=
  BitVec.extractLsb'_append_eq_right

@[simp] theorem fieldTarget_formatW (opc : BitVec 8) (t : Target) (width : BitVec 8) :
    fieldTarget (formatW opc t width) = t := by
  simp only [fieldTarget, formatW, BitVec.getLsbD_append]
  cases t <;> rfl

@[simp] theorem fieldTarget_formatT (opc : BitVec 8) (t : Target) : fieldTarget (formatT opc t) = t := by
  simp only [fieldTarget, formatT, BitVec.getLsbD_append]
  cases t <;> rfl

@[simp] theorem fieldExp_formatV (opc : BitVec 8) (exp : Crc) : fieldExp (formatV opc exp) = exp :=
  BitVec.extractLsb'_append_eq_right

@[simp] theorem fieldLow8_formatI (opc imm : BitVec 8) : fieldLow8 (formatI opc imm) = imm :=
  BitVec.extractLsb'_append_eq_right

@[simp] theorem fieldLow8_formatC (opc : BitVec 8) (hc : Bool) (id : BitVec 8) :
    fieldLow8 (formatC opc hc id) = id :=
  BitVec.extractLsb'_append_eq_right

@[simp] theorem fieldHc_formatC (opc : BitVec 8) (hc : Bool) (id : BitVec 8) : fieldHc (formatC opc hc id) = hc := by
  simp only [fieldHc, formatC, BitVec.getLsbD_append]
  cases hc <;> rfl

@[simp] theorem fieldOff_formatF (opc : BitVec 8) (idx : BitVec 2) (off : BitVec 5) :
    fieldOff (formatF opc idx off) = off :=
  BitVec.extractLsb'_append_eq_right

@[simp] theorem fieldIdx_formatF (opc : BitVec 8) (idx : BitVec 2) (off : BitVec 5) :
    fieldIdx (formatF opc idx off) = idx := by
  refine BitVec.eq_of_getLsbD_eq fun j hj => ?_
  simp only [fieldIdx, formatF, BitVec.getLsbD_extractLsb', BitVec.getLsbD_append]
  interval_cases j <;> rfl

/-! ### A word is its fixed bits and its fields -/

/-- Words with the same bits under a mask are equal if they agree where the mask is 0. -/
theorem word_eq_of_masked {cw cw' mask : Word} (hfixed : cw &&& mask = cw' &&& mask)
    (hfree : ∀ j < 32, mask.getLsbD j = false → cw.getLsbD j = cw'.getLsbD j) : cw = cw' := by
  refine BitVec.eq_of_getLsbD_eq fun j hj => ?_
  cases hm : mask.getLsbD j with
  | false => exact hfree j hj hm
  | true => simpa [hm] using congrArg (BitVec.getLsbD · j) hfixed

theorem getLsbD_eq_of_fieldLow8 {cw cw' : Word} (h : fieldLow8 cw = fieldLow8 cw') {j : Nat} (hj : j < 8) :
    cw.getLsbD j = cw'.getLsbD j := by
  simpa [fieldLow8, hj] using congrArg (BitVec.getLsbD · j) h

theorem getLsbD_eq_of_fieldExp {cw cw' : Word} (h : fieldExp cw = fieldExp cw') {j : Nat} (hj : j < 16) :
    cw.getLsbD j = cw'.getLsbD j := by
  simpa [fieldExp, hj] using congrArg (BitVec.getLsbD · j) h

theorem getLsbD_eq_of_fieldOff {cw cw' : Word} (h : fieldOff cw = fieldOff cw') {j : Nat} (hj : j < 5) :
    cw.getLsbD j = cw'.getLsbD j := by
  simpa [fieldOff, hj] using congrArg (BitVec.getLsbD · j) h

theorem getLsbD_eq_of_fieldIdx {cw cw' : Word} (h : fieldIdx cw = fieldIdx cw') {j : Nat} (hlo : 8 ≤ j)
    (hhi : j < 10) : cw.getLsbD j = cw'.getLsbD j := by
  simpa [fieldIdx, show j - 8 < 2 by omega, Nat.add_sub_cancel' hlo] using congrArg (BitVec.getLsbD · (j - 8)) h

theorem getLsbD_eq_of_fieldTarget {cw cw' : Word} (h : fieldTarget cw = fieldTarget cw') :
    cw.getLsbD 23 = cw'.getLsbD 23 := by
  unfold fieldTarget at h
  cases hb : cw.getLsbD 23 <;> cases hb' : cw'.getLsbD 23 <;> simp_all

theorem formatW_of_fields (opc : BitVec 8) {cw : Word} (h : cw &&& 0xFF7FFF00#32 = opc ++ 0#24) :
    formatW opc (fieldTarget cw) (fieldLow8 cw) = cw := by
  refine word_eq_of_masked ((Laws.RowMatch.formatW_mask ..).trans h.symm) fun j hj hfree => ?_
  have free : ∀ j < 32, (0xFF7FFF00#32).getLsbD j = false → j < 8 ∨ j = 23 := by decide
  rcases free j hj hfree with hlow | rfl
  · exact getLsbD_eq_of_fieldLow8 (fieldLow8_formatW ..) hlow
  · exact getLsbD_eq_of_fieldTarget (fieldTarget_formatW ..)

theorem formatW_buffer_of_fields (opc : BitVec 8) {cw : Word} (h : cw &&& 0xFFFFFF00#32 = opc ++ 0#24) :
    formatW opc .buffer (fieldLow8 cw) = cw := by
  refine word_eq_of_masked ((Laws.RowMatch.formatW_buffer_mask ..).trans h.symm) fun j hj hfree => ?_
  have free : ∀ j < 32, (0xFFFFFF00#32).getLsbD j = false → j < 8 := by decide
  exact getLsbD_eq_of_fieldLow8 (fieldLow8_formatW ..) (free j hj hfree)

theorem formatT_of_fields (opc : BitVec 8) {cw : Word} (h : cw &&& 0xFF7FFFFF#32 = opc ++ 0#24) :
    formatT opc (fieldTarget cw) = cw := by
  refine word_eq_of_masked ((Laws.RowMatch.formatT_mask ..).trans h.symm) fun j hj hfree => ?_
  have free : ∀ j < 32, (0xFF7FFFFF#32).getLsbD j = false → j = 23 := by decide
  obtain rfl := free j hj hfree
  exact getLsbD_eq_of_fieldTarget (fieldTarget_formatT ..)

theorem formatV_of_fields (opc : BitVec 8) {cw : Word} (h : cw &&& 0xFFFF0000#32 = opc ++ 0#24) :
    formatV opc (fieldExp cw) = cw := by
  refine word_eq_of_masked ((Laws.RowMatch.formatV_mask ..).trans h.symm) fun j hj hfree => ?_
  have free : ∀ j < 32, (0xFFFF0000#32).getLsbD j = false → j < 16 := by decide
  exact getLsbD_eq_of_fieldExp (fieldExp_formatV ..) (free j hj hfree)

theorem formatI_of_fields (opc : BitVec 8) {cw : Word} (h : cw &&& 0xFFFFFF00#32 = opc ++ 0#24) :
    formatI opc (fieldLow8 cw) = cw := by
  refine word_eq_of_masked ((Laws.RowMatch.formatI_mask ..).trans h.symm) fun j hj hfree => ?_
  have free : ∀ j < 32, (0xFFFFFF00#32).getLsbD j = false → j < 8 := by decide
  exact getLsbD_eq_of_fieldLow8 (fieldLow8_formatI ..) (free j hj hfree)

theorem formatC_of_fields (opc : BitVec 8) {cw : Word} (h : cw &&& 0xFFFFFE00#32 = opc ++ 0#24) :
    formatC opc (fieldHc cw) (fieldLow8 cw) = cw := by
  refine word_eq_of_masked ((Laws.RowMatch.formatC_mask ..).trans h.symm) fun j hj hfree => ?_
  have free : ∀ j < 32, (0xFFFFFE00#32).getLsbD j = false → j < 8 ∨ j = 8 := by decide
  rcases free j hj hfree with hlow | rfl
  · exact getLsbD_eq_of_fieldLow8 (fieldLow8_formatC ..) hlow
  · exact fieldHc_formatC ..

theorem formatF_of_fields (opc : BitVec 8) {cw : Word} (h : cw &&& 0xFFFFFCE0#32 = opc ++ 0#24) :
    formatF opc (fieldIdx cw) (fieldOff cw) = cw := by
  refine word_eq_of_masked ((Laws.RowMatch.formatF_mask ..).trans h.symm) fun j hj hfree => ?_
  have free : ∀ j < 32, (0xFFFFFCE0#32).getLsbD j = false → j < 5 ∨ 8 ≤ j ∧ j < 10 := by decide
  rcases free j hj hfree with hoff | ⟨hlo, hhi⟩
  · exact getLsbD_eq_of_fieldOff (fieldOff_formatF ..) hoff
  · exact getLsbD_eq_of_fieldIdx (fieldIdx_formatF ..) hlo hhi

/-- A word of a format without fields is the row's `match`. -/
theorem formatZ_of_fixed (opc : BitVec 8) {cw : Word} (h : cw &&& 0xFFFFFFFF#32 = opc ++ 0#24) : formatZ opc = cw := by
  have hall : 0xFFFFFFFF#32 = BitVec.allOnes 32 := rfl
  rw [hall, BitVec.and_allOnes] at h
  exact h.symm

/-! ### The obligations of the two directions -/

/-- Settles O1: the encoder's word has the fixed bits of its command's row, and the row reads back each field. -/
theorem encodedCommandDecodesToItself : Obligations.EncodedCommandDecodesToItself := by
  intro i
  cases i with
  | rdsr sr => exact decode_of_row 0 (Laws.RowMatch.rdsr sr) (congrArg Instr.rdsr (fieldLow8_formatI ..))
  | bbwrite width value =>
    exact decode_of_row 1 (Laws.RowMatch.bbwrite width value)
      (congrArg (Instr.bbwrite · value) (fieldLow8_formatW ..))
  | bbread target width =>
    exact decode_of_row 2 (Laws.RowMatch.bbread target width)
      (congrArg₂ Instr.bbread (fieldTarget_formatW ..) (fieldLow8_formatW ..))
  | bbpeek target width =>
    exact decode_of_row 3 (Laws.RowMatch.bbpeek target width)
      (congrArg₂ Instr.bbpeek (fieldTarget_formatW ..) (fieldLow8_formatW ..))
  | bbrem target => exact decode_of_row 4 (Laws.RowMatch.bbrem target) (congrArg Instr.bbrem (fieldTarget_formatT ..))
  | bbreset => exact decode_of_row 5 Laws.RowMatch.bbreset rfl
  | bbslice start length => exact decode_of_row 6 (Laws.RowMatch.bbslice start length) rfl
  | crccomp start length => exact decode_of_row 7 (Laws.RowMatch.crccomp start length) rfl
  | crcverify exp start length =>
    exact decode_of_row 8 (Laws.RowMatch.crcverify exp start length)
      (congrArg (Instr.crcverify · start length) (fieldExp_formatV ..))
  | ficcfg n => exact decode_of_row 9 (Laws.RowMatch.ficcfg n) (congrArg Instr.ficcfg (fieldLow8_formatI ..))
  | ficnew => exact decode_of_row 10 Laws.RowMatch.ficnew rfl
  | fiblatch => exact decode_of_row 11 Laws.RowMatch.fiblatch rfl
  | fibcommit => exact decode_of_row 12 Laws.RowMatch.fibcommit rfl
  | fibrd idx off =>
    exact decode_of_row 13 (Laws.RowMatch.fibrd idx off)
      (congrArg₂ Instr.fibrd (fieldIdx_formatF ..) (fieldOff_formatF ..))
  | msccfg hc id plen =>
    exact decode_of_row 14 (Laws.RowMatch.msccfg hc id plen)
      (congrArg₂ (Instr.msccfg · · plen) (fieldHc_formatC ..) (fieldLow8_formatC ..))
  | mscparse id => exact decode_of_row 15 (Laws.RowMatch.mscparse id) (congrArg Instr.mscparse (fieldLow8_formatI ..))

/-- The encoder writes back the word of the row that gave the command. -/
theorem encode_build_cw (t : Transaction) :
    ∀ r ∈ opcodeTable, t.cw &&& r.mask = r.mtch → (encode (r.build t)).cw = t.cw := by
  simp only [opcodeTable, List.forall_mem_cons]
  exact ⟨formatI_of_fields 0x01#8, formatW_buffer_of_fields 0x10#8, formatW_of_fields 0x11#8, formatW_of_fields 0x12#8,
    formatT_of_fields 0x13#8, formatZ_of_fixed 0x14#8, formatZ_of_fixed 0x15#8, formatZ_of_fixed 0x20#8,
    formatV_of_fields 0x21#8, formatI_of_fields 0x30#8, formatZ_of_fixed 0x31#8, formatZ_of_fixed 0x32#8,
    formatZ_of_fixed 0x33#8, formatF_of_fields 0x34#8, formatC_of_fields 0x38#8, formatI_of_fields 0x39#8, nofun⟩

/-- A row copies the operands its command uses. -/
theorem encode_build_operands (t : Transaction) : ∀ r ∈ opcodeTable,
    ((r.build t).usesOpa = true → (encode (r.build t)).opa = t.opa) ∧
      ((r.build t).usesOpb = true → (encode (r.build t)).opb = t.opb) := by
  simp [opcodeTable, Instr.usesOpa, Instr.usesOpb, encode]

/-- Settles O2: the row that gave the command has the word's fixed bits and took its fields and operands. -/
theorem decodedWordIsItsCommandsEncoding : Obligations.DecodedWordIsItsCommandsEncoding := by
  intro t i h
  obtain ⟨r, hr, hacc, rfl⟩ := row_of_decode h
  exact ⟨encode_build_cw t r hr hacc, encode_build_operands t r hr⟩

/-! ### The obligations about the table -/

/-- Settles O3: the first three clauses are facts of the table, the last three follow from the distinct opcodes. -/
theorem noWordMatchesTwoCommands : Obligations.NoWordMatchesTwoCommands := by
  refine ⟨opcodeTable_opcodes_nodup, rfl, opcodeTable_masks, fun cw =>
    ⟨?_, fun r hr hacc a b => decode_of_accepted hr hacc, fun hrow a b => (decode_error_iff ⟨cw, a, b⟩).2 hrow⟩⟩
  refine (List.pairwise_map.1 opcodeTable_opcodes_nodup).imp_of_mem fun hr hr' hne => ?_
  rintro ⟨hacc, hacc'⟩
  exact hne (congrArg rowOpcode (row_of_accepted_unique hr hr' hacc hacc'))

/-- A row reads of the operands just those its command uses. -/
theorem build_congr_operands (cw : Word) (a b a' b' : Operand) : ∀ r ∈ opcodeTable,
    ((r.build ⟨cw, a, b⟩).usesOpa = false ∨ a = a') → ((r.build ⟨cw, a, b⟩).usesOpb = false ∨ b = b') →
      r.build ⟨cw, a', b'⟩ = r.build ⟨cw, a, b⟩ := by
  simp +contextual [opcodeTable, Instr.usesOpa, Instr.usesOpb]

/-- Settles O4: the row depends on the word alone, and reads of the operands just those its command uses. -/
theorem unusedOperandsAreIgnored : Obligations.UnusedOperandsAreIgnored := by
  intro cw a b a' b' i h
  obtain ⟨r, hr, hacc, rfl⟩ := row_of_decode h
  have decoded : decode ⟨cw, a', b'⟩ = .ok (r.build ⟨cw, a', b'⟩) := decode_of_accepted hr hacc
  refine ⟨⟨_, decoded, ?_⟩, fun hopa hopb => ?_⟩
  · exact (encode_build_cw ⟨cw, a', b'⟩ r hr hacc).trans (encode_build_cw ⟨cw, a, b⟩ r hr hacc).symm
  · rw [decoded, build_congr_operands cw a b a' b' r hr hopa hopb]

/-- Settles O5: each word by evaluation of the table. -/
theorem sampleWordsDecode : Obligations.SampleWordsDecode :=
  ⟨rfl, rfl, rfl, rfl, rfl, rfl, rfl, rfl, rfl, rfl⟩

/-- BBWRITE, BBRESET and BBSLICE have no target bit: their rows fix `cw[23]` at 0. -/
theorem targetBit_fixed : ∀ r ∈ opcodeTable, rowOpcode r ∈ [0x10#8, 0x14#8, 0x15#8] →
    r.mask.getLsbD 23 = true ∧ r.mtch.getLsbD 23 = false := by decide

/-- Settles O6: a word of a row has its opcode, which excludes the first case, and its fixed bits, which exclude the
second. -/
theorem unlistedOpcodesAndViewWritesAreIllegal : Obligations.UnlistedOpcodesAndViewWritesAreIllegal := by
  intro cw a b
  refine ⟨fun hopc => ?_, fun hopc htarget => ?_⟩
  · have hunlisted : ¬opcodeListed cw = true := fun h => hopc ((opcodeListed_iff cw).1 h)
    rw [decode_of_no_row, if_neg hunlisted]
    exact fun r hr hacc => hunlisted ((opcodeListed_iff cw).2
      (opcode_of_accepted hr hacc ▸ List.mem_map_of_mem hr))
  · have rows : [0x10#8, 0x14#8, 0x15#8] ⊆ opcodeTable.map rowOpcode := by decide
    rw [decode_of_no_row, if_pos ((opcodeListed_iff cw).2 (rows hopc))]
    intro r hr hacc
    obtain ⟨hmask, hmtch⟩ := targetBit_fixed r hr (opcode_of_accepted hr hacc ▸ hopc)
    have hbit : (cw &&& r.mask).getLsbD 23 = r.mtch.getLsbD 23 := congrArg (BitVec.getLsbD · 23) hacc
    rw [BitVec.getLsbD_and, htarget, hmask, hmtch] at hbit
    exact absurd hbit (by decide)

end Sys2Proof.Machine

/-! What a command can change: an error changes nothing, and an accepted command has one of the effects of `Effect`,
under the bounds that its checks establish. The frames of every command follow, and the obligations about them. -/

namespace Sys2Proof.Machine

/-! ### The commands that share the read -/

theorem exec_bbread (target : Target) (w : BitVec 8) (s : State) :
    exec (.bbread target w) s = fieldRead target w s fun v => .next ((s.advance w.toNat target).respond v) := rfl

theorem exec_bbpeek (target : Target) (w : BitVec 8) (s : State) :
    exec (.bbpeek target w) s = fieldRead target w s fun v => .next (s.respond v) := rfl

/-! ### The effects -/

/-- The commands that read the state and change nothing but the response (20_memory.md section 4). -/
def onlyReads : Instr → Bool
  | .rdsr _ | .bbpeek _ _ | .bbrem _ | .crccomp _ _ | .crcverify _ _ _ | .fibrd _ _ => true
  | _ => false

/-- The state that an accepted command leaves, before the response, with the bounds its checks establish. -/
inductive Effect (s : State) : Instr → State → Prop
  | reading {i : Instr} (hreads : onlyReads i = true) : Effect s i s
  | bbwrite {w : BitVec 8} {v : Operand} (hroom : s.bbwr + w.toNat ≤ s.cfg.capBits) :
      Effect s (.bbwrite w v)
        { s with bit := Memory.writeBits s.bit s.bbwr w.toNat v.toNat, bbwr := s.bbwr + w.toNat }
  | bbreadBuffer {w : BitVec 8} (hle : s.bbrd + w.toNat ≤ s.bbwr) :
      Effect s (.bbread .buffer w) (s.advance w.toNat .buffer)
  | bbreadView {w : BitVec 8} (hview : s.view.valid = true) (hle : s.view.rd + w.toNat ≤ s.view.len) :
      Effect s (.bbread .view w) (s.advance w.toNat .view)
  | bbreset : Effect s .bbreset { s with bbwr := 0, bbrd := 0, view := View.none, msc := MscRecord.empty }
  | bbslice {start length : Operand} (hin : start.toNat + length.toNat ≤ s.bbwr) :
      Effect s (.bbslice start length) { s with view := ⟨true, start.toNat, length.toNat, 0⟩ }
  | ficcfg {n : BitVec 8} (hn : n.toNat = 3 ∨ n.toNat = 4) (hstate : s.fstate = .awaitingFib) (hfibn : s.fibn = 0) :
      Effect s (.ficcfg n) { s with fibcount := n.toNat }
  | ficnew : Effect s .ficnew
      { s with fstate := .awaitingFib, fibn := 0, fibvalid := Vector.replicate 4 false, framevalid := true }
  | fiblatch (hcount : s.fibcount ≠ 0) (hstate : s.fstate = .awaitingFib) (hbits : s.bbrd + 256 ≤ s.bbwr) :
      Effect s .fiblatch
        { s with hold := Memory.fibAt s.bit s.bbrd, bbrd := s.bbrd + 256, fstate := .fibComplete }
  | fibcommit (hstate : s.fstate = .fibComplete) (hfibn : s.fibn < 4) : Effect s .fibcommit s.appendFib
  | msccfg {hc : Bool} {id : BitVec 8} {plen : Operand} (hid : id.toNat < s.cfg.nsubch)
      (hlen : hc = true → plen.toNat % 8 = 0) :
      Effect s (.msccfg hc id plen) { s with subch := subchWrite s.subch id.toNat ⟨true, plen, hc⟩ }
  | mscparse {id : BitVec 8} {row : SubchRow} {valid : Bool} (hrow : row = subchRead s.subch id.toNat)
      (hview : s.view.valid = true) (hlen : row.plen.toNat ≤ s.view.len) :
      Effect s (.mscparse id) { s with msc := ⟨true, id, s.view.base, row.plen.toNat, row.hc, valid⟩ }

section Next

variable {s t : State}

/-- A command answers an error or its effect. -/
def FailedOrEffect (i : Instr) (s t : State) : Prop := Failed s t ∨ ∃ u v, Effect s i u ∧ t = u.respond v

theorem FailedOrEffect.read {i : Instr} {v : Operand} (hreads : onlyReads i = true) (ht : t = s.respond v) :
    FailedOrEffect i s t :=
  .inr ⟨s, v, .reading hreads, ht⟩

theorem FailedOrEffect.done {i : Instr} {u : State} {v : Operand} (heff : Effect s i u) (ht : t = u.respond v) :
    FailedOrEffect i s t :=
  .inr ⟨u, v, heff, ht⟩

theorem execBbread_failedOrEffect {target : Target} {w : BitVec 8} (h : execBbread target w s = .next t) :
    FailedOrEffect (.bbread target w) s t := by
  rcases execBbread_next h with hf | ⟨win, v, hwin, hle, -, -, rfl⟩
  · exact .inl hf
  cases target with
  | buffer =>
    cases hwin
    exact .done (.bbreadBuffer hle) rfl
  | view =>
    by_cases hv : s.view.valid = true
    · rw [window_view_of_valid hv] at hwin
      cases hwin
      exact .done (.bbreadView hv hle) rfl
    · simp [window_view_of_invalid (Bool.eq_false_iff.2 hv)] at hwin

/-- What any command can do. -/
theorem exec_next {i : Instr} (h : exec i s = .next t) : FailedOrEffect i s t := by
  cases i with
  | rdsr n => exact (execRdsr_next h).elim .inl fun ⟨_, ht⟩ => .read rfl ht
  | bbwrite w v => exact (execBbwrite_next h).elim .inl fun ⟨_, hroom, ht⟩ => .done (.bbwrite hroom) ht
  | bbread target w => exact execBbread_failedOrEffect h
  | bbpeek target w => exact (execBbpeek_next h).elim .inl fun ⟨_, _, _, _, _, _, ht⟩ => .read rfl ht
  | bbrem target => exact (execBbrem_next h).elim .inl fun ⟨_, _, ht⟩ => .read rfl ht
  | bbreset => exact .done .bbreset (execBbreset_next h)
  | bbslice start length => exact (execBbslice_next h).elim .inl fun ⟨hin, ht⟩ => .done (.bbslice hin) ht
  | crccomp start length => exact (crcCommand_next h).elim .inl fun ⟨_, _, ht⟩ => .read rfl ht
  | crcverify exp start length =>
    rw [exec_crcverify] at h
    exact (crcCommand_next h).elim .inl fun ⟨_, _, ht⟩ => .read rfl ht
  | ficcfg n => exact (execFiccfg_next h).elim .inl fun ⟨hn, hst, hfibn, ht⟩ => .done (.ficcfg hn hst hfibn) ht
  | ficnew => exact .done .ficnew (execFicnew_next h)
  | fiblatch =>
    exact (execFiblatch_next h).elim .inl fun ⟨hcount, hst, hbits, ht⟩ => .done (.fiblatch hcount hst hbits) ht
  | fibcommit => exact (execFibcommit_next h).elim .inl fun ⟨hst, hfibn, ht⟩ => .done (.fibcommit hst hfibn) ht
  | fibrd idx off => exact (execFibrd_next h).elim .inl fun ⟨_, ht⟩ => .read rfl ht
  | msccfg hc id plen => exact (execMsccfg_next h).elim .inl fun ⟨hid, hlen, ht⟩ => .done (.msccfg hid hlen) ht
  | mscparse id => exact (execMscparse_next h).elim .inl fun ⟨_, _, hv, hlen, ht⟩ => .done (.mscparse rfl hv hlen) ht

end Next

/-! ### The records of the frame after an append -/

theorem appendFib_fibvalid_getElem (s : State) (k : Fin 4) :
    s.appendFib.fibvalid[k] = if s.fibn = k.val then fibValid s.cfg.crcXorout s.hold else s.fibvalid[k] := by
  simp [Vector.getElem_setIfInBounds]

theorem appendFib_fibmem_getElem (s : State) (k : Fin 4) :
    s.appendFib.fibmem[k] = if s.fibn = k.val then s.hold else s.fibmem[k] := by
  simp [Vector.getElem_setIfInBounds]

/-! ### The obligations -/

/-- Settles O24: an error changes the response alone, and each effect names the fields it changes. -/
theorem cursorsViewAndTablesHaveTheirWriters : Obligations.CursorsViewAndTablesHaveTheirWriters := by
  intro i s t h
  rcases exec_next h with ⟨st, -, rfl⟩ | ⟨u, v, heff, rfl⟩
  · exact ⟨rfl, rfl, fun _ => rfl, fun _ => rfl, fun _ => rfl, fun _ => rfl, fun _ => rfl⟩
  · -- a field that the effect leaves is the same by definition; of one that it changes nothing is claimed
    cases heff <;> refine ⟨rfl, rfl, ?_, ?_, ?_, ?_, ?_⟩ <;> intro hother <;> trivial

/-- Settles O25: the same for the FIC fields. -/
theorem ficStateHasItsWriters : Obligations.FicStateHasItsWriters := by
  intro i s t h
  rcases exec_next h with ⟨st, -, rfl⟩ | ⟨u, v, heff, rfl⟩
  · exact ⟨fun _ => rfl, fun _ => rfl, fun _ => rfl, fun _ => rfl, fun _ => ⟨rfl, rfl, rfl⟩⟩
  · cases heff <;> simp

/-- No command but BBWRITE changes the bit store, and BBWRITE changes it from `BBWR` on. -/
theorem exec_bit {i : Instr} {s t : State} (h : exec i s = .next t) :
    t.bit = s.bit ∨ ∃ w v, i = .bbwrite w v ∧ t.bit = Memory.writeBits s.bit s.bbwr w.toNat v.toNat := by
  rcases exec_next h with ⟨st, -, rfl⟩ | ⟨u, v, heff, rfl⟩
  · exact .inl rfl
  · cases heff with
    | bbwrite => exact .inr ⟨_, _, rfl, rfl⟩
    | _ => exact .inl rfl

/-- Settles O23: for the bits by the law of `Memory.writeBits`, for a byte by its eight bits. -/
theorem storeChangesOnlyWhereBbwriteWrites : Obligations.StoreChangesOnlyWhereBbwriteWrites := by
  intro i s t hwf h
  have bits (a : Nat) (ha : ¬bitStored s i a) : Memory.getBit t.bit a = Memory.getBit s.bit a := by
    rcases exec_bit h with hbit | ⟨w, v, rfl, hbit⟩
    · rw [hbit]
    · rw [hbit, Memory.getBit_writeBits _ _ _ _ _ hwf]
      exact if_neg ha
  exact ⟨bits, fun j hj => Memory.read_congr _ _ j fun k hk => bits _ (hj k hk)⟩

/-- Settles O26: only FIBCOMMIT, besides FICNEW, changes the frame, and it writes at `FIBN`, above every appended FIB. -/
theorem appendedFibsStayUntilFicnew : Obligations.AppendedFibsStayUntilFicnew := by
  intro i s t hne h
  rcases exec_next h with ⟨st, -, rfl⟩ | ⟨u, v, heff, rfl⟩
  · exact ⟨le_rfl, id, fun _ _ => ⟨rfl, rfl⟩⟩
  cases heff with
  | ficnew => exact absurd rfl hne
  | fibcommit hstate hfibn =>
    refine ⟨Nat.le_succ s.fibn, fun hframe => by simp [hframe], fun k hk => ?_⟩
    have hother : ¬s.fibn = k.val := by omega
    exact ⟨(appendFib_fibmem_getElem s k).trans (if_neg hother),
      (appendFib_fibvalid_getElem s k).trans (if_neg hother)⟩
  | _ => exact ⟨le_rfl, id, fun _ _ => ⟨rfl, rfl⟩⟩

/-- No command reads the response of the step before (log entry 2). -/
theorem exec_ignores_rsp (i : Instr) (s : State) (r : Option Response) : exec i { s with rsp := r } = exec i s := by
  cases i with
  | bbread target w => cases target <;> rfl
  | _ => rfl

/-- Settles O22: a reading command leaves the state but for the response, which no command reads. -/
theorem readOnlyCommandsChangeNothing : Obligations.ReadOnlyCommandsChangeNothing := by
  intro i s t hi h
  have unchanged : t = { s with rsp := t.rsp } := by
    rcases exec_next h with ⟨st, -, rfl⟩ | ⟨u, v, heff, rfl⟩
    · rfl
    · cases heff with
      | reading => rfl
      | _ => exact hi.elim
  refine ⟨unchanged, ?_⟩
  rw [unchanged, exec_ignores_rsp, h, ← unchanged]

end Sys2Proof.Machine

/-! The invariants (10_state.md R25, R27, R36, R38): reset meets them, every effect keeps them, and under them no command
faults; then the obligations about the step and about runs. -/

namespace Sys2Proof.Machine

/-! ### The parts of the invariant under changes elsewhere -/

theorem ViewInv.of_bbwr_le {s t : State} (h : ViewInv s) (hview : t.view = s.view) (hle : s.bbwr ≤ t.bbwr) :
    ViewInv t := by
  refine ⟨fun hv => ?_, fun hv => ?_⟩
  · rw [hview] at hv ⊢
    obtain ⟨hend, hrd⟩ := h.1 hv
    exact ⟨hend.trans hle, hrd⟩
  · rw [hview] at hv ⊢
    exact h.2 hv

theorem MscInv.of_bbwr_le {s t : State} (h : MscInv s) (hmsc : t.msc = s.msc) (hle : s.bbwr ≤ t.bbwr) : MscInv t := by
  refine ⟨fun hp => ?_, fun hp => ?_⟩
  · rw [hmsc] at hp ⊢
    exact (h.1 hp).trans hle
  · rw [hmsc] at hp ⊢
    exact h.2 hp

/-- The FIC invariants speak of five fields alone. -/
theorem FicInv.congr {s t : State} (h : FicInv s) (hcount : t.fibcount = s.fibcount) (hstate : t.fstate = s.fstate)
    (hfibn : t.fibn = s.fibn) (hvalid : t.fibvalid = s.fibvalid) (hframe : t.framevalid = s.framevalid) : FicInv t := by
  obtain ⟨hlegal, hle, hcomplete, hlatched, hflag, hunused⟩ := h
  constructor <;> simpa only [hcount, hstate, hfibn, hvalid, hframe]

/-- The invariants do not speak of the response or of the events that wait. -/
theorem Inv.with_port {s : State} (hi : Inv s) (inbox : List Event) (rsp : Option Response) :
    Inv { s with inbox := inbox, rsp := rsp } :=
  ⟨hi.params, hi.buffer, hi.store, hi.view, hi.fic.congr rfl rfl rfl rfl rfl, hi.subch, hi.msc⟩

/-! ### Each effect on its part of the invariant -/

section Parts

variable {s : State}

/-- A field within the capacity touches storage bytes within it. -/
theorem StoreInv.writeBits (h : StoreInv s) {n : Nat} (v : Nat) (hroom : s.bbwr + n ≤ s.cfg.capBits) :
    StoreInv { s with bit := Memory.writeBits s.bit s.bbwr n v, bbwr := s.bbwr + n } := by
  refine ⟨Memory.writeBits_wf _ _ _ _ h.1, fun c hc => ?_⟩
  rcases Memory.mem_writeBits _ _ _ _ c hc with hold | ⟨k, hk, haddr⟩
  · exact h.2 c hold
  · unfold Params.capBits at hroom
    show c.1 < s.cfg.capBytes
    omega

theorem FicInv.ficcfg (h : FicInv s) {n : Nat} (hn : n = 3 ∨ n = 4) (hstate : s.fstate = .awaitingFib)
    (hfibn : s.fibn = 0) : FicInv { s with fibcount := n } where
  count_legal := .inr hn
  fibn_le := by simp [hfibn]
  complete_iff := by
    simp only [hstate, hfibn]
    refine iff_of_false (by decide) ?_
    omega
  latched := by simp [hstate]
  frame_flag := h.frame_flag
  unused_flags := h.unused_flags

/-- FICNEW starts an empty frame: no FIB is appended, and the flag of no FIBs is 1. -/
theorem FicInv.ficnew (h : FicInv s) :
    FicInv { s with
      fstate := .awaitingFib, fibn := 0, fibvalid := Vector.replicate 4 false, framevalid := true } where
  count_legal := h.count_legal
  fibn_le := Nat.zero_le _
  complete_iff := iff_of_false nofun fun ⟨hne, heq⟩ => hne heq.symm
  latched := nofun
  frame_flag := by simp
  unused_flags k _ := by simp

/-- FIBLATCH leaves `AWAITING_FIB`, where the frame is not complete. -/
theorem FicInv.fiblatch (h : FicInv s) (hcount : s.fibcount ≠ 0) (hstate : s.fstate = .awaitingFib) (hold : Fib)
    (bbrd : Nat) : FicInv { s with hold := hold, bbrd := bbrd, fstate := .fibComplete } := by
  have hincomplete : ¬(s.fibcount ≠ 0 ∧ s.fibn = s.fibcount) := mt h.complete_iff.2 (by simp [hstate])
  refine ⟨h.count_legal, h.fibn_le, iff_of_false nofun hincomplete, fun _ => ⟨hcount, ?_⟩, h.frame_flag,
    h.unused_flags⟩
  exact lt_of_le_of_ne h.fibn_le fun heq => hincomplete ⟨hcount, heq⟩

/-- FIBCOMMIT appends one FIB: the frame flag takes its validity in, and the frame completes at `FIBCOUNT`. -/
theorem FicInv.fibcommit (h : FicInv s) (hstate : s.fstate = .fibComplete) : FicInv s.appendFib := by
  obtain ⟨hcount, hfibn⟩ := h.latched hstate
  refine ⟨h.count_legal, hfibn, ?_, ?_, ?_, fun k hk => ?_⟩
  · rw [State.appendFib_fstate, State.appendFib_fibn, State.appendFib_fibcount]
    split_ifs with hmore
    · exact iff_of_false (by decide) (by omega)
    · exact iff_of_true rfl ⟨hcount, by omega⟩
  · rw [State.appendFib_fstate]
    split_ifs <;> exact nofun
  · rw [State.appendFib_framevalid, State.appendFib_fibn, Bool.and_eq_true, h.frame_flag]
    simp only [appendFib_fibvalid_getElem]
    constructor
    · rintro ⟨hbefore, hnew⟩ k hk
      split_ifs with hkn
      · exact hnew
      · exact hbefore k (by omega)
    · intro hall
      have hlt : s.fibn < 4 := lt_of_lt_of_le hfibn h.fibcount_le
      refine ⟨fun k hk => ?_, ?_⟩
      · have := hall k (by omega)
        rwa [if_neg (by omega)] at this
      · have := hall ⟨s.fibn, hlt⟩ (Nat.lt_succ_self _)
        rwa [if_pos rfl] at this
  · have hlt : s.fibn + 1 ≤ k.val := hk
    rw [appendFib_fibvalid_getElem, if_neg (by omega)]
    exact h.unused_flags k (by omega)

theorem SubchInv.msccfg (h : SubchInv s) {hc : Bool} {id : BitVec 8} {plen : Operand}
    (hid : id.toNat < s.cfg.nsubch) (hlen : hc = true → plen.toNat % 8 = 0) :
    SubchInv { s with subch := subchWrite s.subch id.toNat ⟨true, plen, hc⟩ } := by
  refine ⟨subchWrite_wf _ _ _ h.1, fun c hmem => ?_⟩
  rcases Store.mem_write _ _ _ _ c hmem with hold | ⟨rfl, -⟩
  · exact h.2 c hold
  · exact ⟨hid, rfl, hlen⟩

end Parts

/-- Every effect keeps the invariants: a command's own checks are the bounds that its part needs. -/
theorem Effect.keeps_inv {s u : State} {i : Instr} (heff : Effect s i u) (hi : Inv s) : Inv u := by
  obtain ⟨hbbrd, hbbwr⟩ := hi.buffer
  cases heff with
  | reading => exact hi
  | @bbwrite w v hroom =>
    have hle : s.bbwr ≤ s.bbwr + w.toNat := Nat.le_add_right _ _
    exact ⟨hi.params, ⟨hbbrd.trans hle, hroom⟩, hi.store.writeBits _ hroom, hi.view.of_bbwr_le rfl hle,
      hi.fic.congr rfl rfl rfl rfl rfl, hi.subch, hi.msc.of_bbwr_le rfl hle⟩
  | bbreadBuffer hle =>
    exact ⟨hi.params, ⟨hle, hbbwr⟩, hi.store, hi.view, hi.fic.congr rfl rfl rfl rfl rfl, hi.subch, hi.msc⟩
  | bbreadView hview hle =>
    have inView : ViewInv (s.advance _ .view) :=
      ⟨fun _ => ⟨hi.view.end_le_bbwr hview, hle⟩, fun hno => absurd (hview.symm.trans hno) (by decide)⟩
    exact ⟨hi.params, hi.buffer, hi.store, inView, hi.fic.congr rfl rfl rfl rfl rfl, hi.subch, hi.msc⟩
  | bbreset =>
    exact ⟨hi.params, ⟨le_rfl, Nat.zero_le _⟩, hi.store, ⟨nofun, fun _ => rfl⟩, hi.fic.congr rfl rfl rfl rfl rfl,
      hi.subch, ⟨nofun, fun _ => rfl⟩⟩
  | bbslice hin =>
    exact ⟨hi.params, hi.buffer, hi.store, ⟨fun _ => ⟨hin, Nat.zero_le _⟩, nofun⟩, hi.fic.congr rfl rfl rfl rfl rfl,
      hi.subch, hi.msc⟩
  | ficcfg hn hstate hfibn =>
    exact ⟨hi.params, hi.buffer, hi.store, hi.view, hi.fic.ficcfg hn hstate hfibn, hi.subch, hi.msc⟩
  | ficnew => exact ⟨hi.params, hi.buffer, hi.store, hi.view, hi.fic.ficnew, hi.subch, hi.msc⟩
  | fiblatch hcount hstate hbits =>
    exact ⟨hi.params, ⟨hbits, hbbwr⟩, hi.store, hi.view, hi.fic.fiblatch hcount hstate _ _, hi.subch, hi.msc⟩
  | fibcommit hstate =>
    exact ⟨hi.params, hi.buffer, hi.store, hi.view, hi.fic.fibcommit hstate, hi.subch, hi.msc⟩
  | msccfg hid hlen =>
    exact ⟨hi.params, hi.buffer, hi.store, hi.view, hi.fic.congr rfl rfl rfl rfl rfl, hi.subch.msccfg hid hlen, hi.msc⟩
  | mscparse _ hview hlen =>
    have hend := hi.view.end_le_bbwr hview
    exact ⟨hi.params, hi.buffer, hi.store, hi.view, hi.fic.congr rfl rfl rfl rfl rfl, hi.subch,
      ⟨fun _ => (Nat.add_le_add_left hlen _).trans hend, nofun⟩⟩

theorem exec_keeps_inv {i : Instr} {s t : State} (hi : Inv s) (h : exec i s = .next t) : Inv t := by
  rcases exec_next h with ⟨st, -, rfl⟩ | ⟨u, v, heff, rfl⟩
  · exact hi.with_port _ _
  · exact (heff.keeps_inv hi).with_port _ _

/-! ### The step, by the event it takes -/

theorem inbox_cases (inbox : List Event) :
    inbox = [] ∨ (∃ rest, inbox = .reset :: rest) ∨ ∃ tr rest, inbox = .command tr :: rest := by
  match inbox with
  | [] => exact .inl rfl
  | .reset :: rest => exact .inr (.inl ⟨rest, rfl⟩)
  | .command tr :: rest => exact .inr (.inr ⟨tr, rest, rfl⟩)

section Step

variable {s t : State} {rest : List Event} {tr : Transaction}

theorem step_of_idle (hin : s.inbox = []) : step s = .next { s with rsp := none } := by
  simp only [step, idleStep, hin]

theorem step_of_reset (hin : s.inbox = .reset :: rest) :
    step s = .next { State.resetWith s.cfg with inbox := rest } := by
  rw [step, hin]
  rfl

theorem step_of_command {i : Instr} (hin : s.inbox = .command tr :: rest) (hdec : decode tr = .ok i) :
    step s = exec i { s with inbox := rest } := by
  simp only [step, hin, hdec]

theorem step_of_illegal_word {e : Illegal} (hin : s.inbox = .command tr :: rest) (hdec : decode tr = .error e) :
    step s = .next ({ s with inbox := rest }.raise .illegalCmd) := by
  simp only [step, hin, hdec, illegalCommand]

/-- What a step can do: nothing, reset, or the answer to a transaction. -/
theorem step_next (h : step s = .next t) :
    t = { s with rsp := none } ∨ (∃ rest, t = { State.resetWith s.cfg with inbox := rest }) ∨
      (∃ rest, t = { s with inbox := rest }.raise .illegalCmd) ∨
        ∃ i rest, exec i { s with inbox := rest } = .next t := by
  rcases inbox_cases s.inbox with hin | ⟨rest, hin⟩ | ⟨tr, rest, hin⟩
  · rw [step_of_idle hin] at h
    cases h
    exact .inl rfl
  · rw [step_of_reset hin] at h
    cases h
    exact .inr (.inl ⟨rest, rfl⟩)
  · rcases step_command_next hin h with ⟨-, ht⟩ | ⟨i, -, hexec⟩
    · exact .inr (.inr (.inl ⟨rest, ht⟩))
    · exact .inr (.inr (.inr ⟨i, rest, hexec⟩))

end Step

/-- Settles O7. -/
theorem stepRunsTheDecodedCommand : Obligations.StepRunsTheDecodedCommand :=
  fun _ _ _ _ => step_of_command

/-- Settles O8: a word of no row is rejected, and `ILLEGAL_CMD` is raised. -/
theorem illegalWordIsAnsweredIllegalCmd : Obligations.IllegalWordIsAnsweredIllegalCmd :=
  fun _ _ _ hin hrow => step_of_illegal_word hin (decode_of_no_row hrow)

/-- Settles O9. -/
theorem idleStepChangesNothing : Obligations.IdleStepChangesNothing :=
  fun _ => step_of_idle

/-- Settles O10. -/
theorem resetEventGivesTheResetState : Obligations.ResetEventGivesTheResetState :=
  fun _ _ => step_of_reset

/-- Settles O27: a reset keeps the parameters by its definition, a command by its frame. -/
theorem everyStepKeepsTheParameters : Obligations.EveryStepKeepsTheParameters := by
  intro s t h
  rcases step_next h with rfl | ⟨rest, rfl⟩ | ⟨rest, rfl⟩ | ⟨i, rest, hexec⟩
  · rfl
  · rfl
  · rfl
  · exact (cursorsViewAndTablesHaveTheirWriters i _ t hexec).1

/-! ### The invariants of reset and of every step -/

/-- Settles O12: nothing is written, read, configured or present, so every bound is one of zeros. -/
theorem resetStateMeetsTheInvariants : Obligations.ResetStateMeetsTheInvariants := by
  intro p hlegal
  exact {
    params := hlegal
    buffer := ⟨le_rfl, Nat.zero_le _⟩
    store := ⟨reset_memory_wf p, nofun⟩
    view := ⟨nofun, fun _ => rfl⟩
    fic := ⟨.inl rfl, le_rfl, iff_of_false nofun fun ⟨hne, _⟩ => hne rfl, nofun, by simp,
      fun k _ => State.resetWith_fibvalid_getElem p k⟩
    subch := ⟨⟨List.Pairwise.nil, nofun⟩, nofun⟩
    msc := ⟨nofun, fun _ => rfl⟩ }

/-- Settles O13: an idle step and an illegal word leave the fields the invariants speak of, a reset meets them anew, and
a command keeps them. -/
theorem everyStepKeepsTheInvariants : Obligations.EveryStepKeepsTheInvariants := by
  intro s t hi h
  rcases step_next h with rfl | ⟨rest, rfl⟩ | ⟨rest, rfl⟩ | ⟨i, rest, hexec⟩
  · exact hi.with_port _ _
  · exact (resetStateMeetsTheInvariants s.cfg hi.params).with_port _ _
  · exact hi.with_port _ _
  · exact exec_keeps_inv (hi.with_port rest s.rsp) hexec

/-! ### No fault under the invariants -/

section NoFault

variable {s : State}

theorem fieldRead_answers_next (hi : Inv s) (target : Target) (width : BitVec 8) {after : Operand → Result}
    (hafter : ∀ v, ∃ t, after v = .next t) : ∃ t, fieldRead target width s after = .next t := by
  rcases fieldRead_cases target width s after with
    ⟨-, e⟩ | ⟨-, -, e⟩ | ⟨win, -, hwin, ⟨-, e⟩ | ⟨hle, hpast, -⟩ | ⟨-, -, v, -, e⟩⟩
  · exact ⟨_, e⟩
  · exact ⟨_, e⟩
  · exact ⟨_, e⟩
  · have hend := (hi.window_le hwin).2
    omega
  · exact e ▸ hafter v

theorem crcCommand_answers_next (start length : Operand) (s : State) (result : Crc → Operand) :
    ∃ t, crcCommand start length s result = .next t := by
  rcases crcCommand_cases start length s result with ⟨-, e⟩ | ⟨-, -, e⟩ | ⟨-, -, e⟩ <;> exact ⟨_, e⟩

/-- A latched FIB has a record: `FIBN` is below `FIBCOUNT`, which is at most 4. -/
theorem execFibcommit_answers_next (hi : Inv s) : ∃ t, execFibcommit s = .next t := by
  by_cases hstate : s.fstate = .fibComplete
  · have hfibn : s.fibn < 4 := lt_of_lt_of_le (hi.fic.latched hstate).2 hi.fic.fibcount_le
    exact ⟨_, execFibcommit_of_latched hstate hfibn⟩
  · exact ⟨_, execFibcommit_of_not_latched hstate⟩

theorem execFiblatch_answers_next (s : State) : ∃ t, execFiblatch s = .next t := by
  by_cases hawait : s.fibcount = 0 ∨ s.fstate ≠ .awaitingFib
  · exact ⟨_, execFiblatch_of_not_awaiting hawait⟩
  obtain ⟨hcount, hstate⟩ := not_or.1 hawait
  by_cases hfew : s.bbwr - s.bbrd < 256
  · exact ⟨_, execFiblatch_of_too_few hcount (not_not.1 hstate) hfew⟩
  · exact ⟨_, execFiblatch_of_enough hcount (not_not.1 hstate) (not_lt.1 hfew)⟩

theorem execMscparse_answers_next (hi : Inv s) (id : BitVec 8) : ∃ t, execMscparse id s = .next t := by
  by_cases hid : s.cfg.nsubch ≤ id.toNat
  · exact ⟨_, execMscparse_of_illegal_id hid⟩
  rw [execMscparse_of_legal_id (not_le.1 hid)]
  by_cases hstate : (subchRead s.subch id.toNat).cfgd = false ∨ s.view.valid = false
  · exact ⟨_, mscParseRow_of_no_row_or_view hstate⟩
  obtain ⟨hrow, hview⟩ : (subchRead s.subch id.toNat).cfgd = true ∧ s.view.valid = true := by simpa using hstate
  by_cases hshort : s.view.len < (subchRead s.subch id.toNat).plen.toNat
  · exact ⟨_, mscParseRow_of_short_view hrow hview hshort⟩
  · rw [mscParseRow_of_payload hrow hview (not_lt.1 hshort)]
    obtain ⟨v, hanswer, -⟩ := mscVerdict_answers (subchRead s.subch id.toNat) (fun v => .next
      ({ s with msc := ⟨true, id, s.view.base, (subchRead s.subch id.toNat).plen.toNat,
        (subchRead s.subch id.toNat).hc, v⟩ }.respond (boolResult v))) (hi.view.end_le_bbwr hview)
    exact ⟨_, hanswer⟩

end NoFault

/-- A choice between answers answers. -/
theorem ite_answers_next {c : Prop} [Decidable c] {a b : Result} (ha : ∃ t, a = .next t) (hb : ∃ t, b = .next t) :
    ∃ t, (if c then a else b) = .next t := by
  split_ifs
  · exact ha
  · exact hb

/-- Under the invariants every command answers. -/
theorem exec_answers_next {s : State} (hi : Inv s) (i : Instr) : ∃ t, exec i s = .next t := by
  cases i with
  | rdsr n => exact ite_answers_next ⟨_, rfl⟩ ⟨_, rfl⟩
  | bbwrite w v => exact ite_answers_next (ite_answers_next ⟨_, rfl⟩ ⟨_, rfl⟩) ⟨_, rfl⟩
  | bbread target w => exact exec_bbread target w s ▸ fieldRead_answers_next hi target w fun v => ⟨_, rfl⟩
  | bbpeek target w => exact exec_bbpeek target w s ▸ fieldRead_answers_next hi target w fun v => ⟨_, rfl⟩
  | bbrem target =>
    rcases hwin : s.window target with _ | win
    · exact ⟨_, execBbrem_of_no_view hwin⟩
    · obtain ⟨v, hanswer, -⟩ := execBbrem_of_window hwin
      exact ⟨_, hanswer⟩
  | bbreset => exact ⟨_, rfl⟩
  | bbslice start length => exact ite_answers_next ⟨_, rfl⟩ ⟨_, rfl⟩
  | crccomp start length => exact crcCommand_answers_next start length s _
  | crcverify exp start length => exact exec_crcverify exp start length s ▸ crcCommand_answers_next start length s _
  | ficcfg n => exact ite_answers_next (ite_answers_next ⟨_, rfl⟩ ⟨_, rfl⟩) ⟨_, rfl⟩
  | ficnew => exact ⟨_, rfl⟩
  | fiblatch => exact execFiblatch_answers_next s
  | fibcommit => exact execFibcommit_answers_next hi
  | fibrd idx off => exact ite_answers_next ⟨_, rfl⟩ ⟨_, rfl⟩
  | msccfg hc id plen => exact ite_answers_next (ite_answers_next ⟨_, rfl⟩ ⟨_, rfl⟩) ⟨_, rfl⟩
  | mscparse id => exact execMscparse_answers_next hi id

/-- Settles O14: only a command could fault, and under the invariants none does. -/
theorem noStepStopsUnderTheInvariants : Obligations.NoStepStopsUnderTheInvariants := by
  intro s hi
  rcases inbox_cases s.inbox with hin | ⟨rest, hin⟩ | ⟨tr, rest, hin⟩
  · exact ⟨_, step_of_idle hin⟩
  · exact ⟨_, step_of_reset hin⟩
  · cases hdec : decode tr with
    | error e => exact ⟨_, step_of_illegal_word hin hdec⟩
    | ok i =>
      rw [step_of_command hin hdec]
      exact exec_answers_next (hi.with_port rest s.rsp) i

/-- No run from a state that meets the invariants stops, and it ends in such a state. -/
theorem run_answers_next {s : State} (hi : Inv s) (k : Nat) :
    ∃ t : State, Host.Core.run Sys2Proof.core k s = .next t ∧ Inv t := by
  induction k generalizing s with
  | zero => exact ⟨s, rfl, hi⟩
  | succ k ih =>
    obtain ⟨u, hstep⟩ := noStepStopsUnderTheInvariants s hi
    obtain ⟨t, hrun, ht⟩ := ih (everyStepKeepsTheInvariants s u hi hstep)
    have hcore : Sys2Proof.core.step s = .next u := hstep
    exact ⟨t, by simpa only [Host.Core.run, hcore] using hrun, ht⟩

/-- Settles O15: the reset state meets the invariants, with whatever events placed before it. -/
theorem noRunFromResetStops : Obligations.NoRunFromResetStops :=
  fun p events k hlegal => run_answers_next ((resetStateMeetsTheInvariants p hlegal).with_port events none) k

/-! ### The faults -/

/-- A read through a view that reaches beyond the written bits faults before what follows it. -/
theorem fieldRead_view_faults {s : State} {w : BitVec 8} (after : Operand → Result) (hw : legalWidth w = true)
    (hview : s.view.valid = true) (hle : s.view.rd + w.toNat ≤ s.view.len)
    (hpast : s.bbwr < s.view.base + s.view.rd + w.toNat) :
    fieldRead .view w s after = .fault (.unwrittenBits (s.view.base + s.view.rd) w.toNat) := by
  simp [fieldRead, hw, window_view_of_valid hview, hle, State.reading, hpast]

/-- Settles O17: past every check of the command, the model's own check of the precondition fails. -/
theorem brokenPreconditionsFault : Obligations.BrokenPreconditionsFault := by
  refine fun s => ⟨fun hstate hfibn => ?_, fun w hw hw' hview hle hpast => ?_,
    fun id hid hview hrow hcrc hfits hpast => ?_⟩
  · show execFibcommit s = _
    rw [execFibcommit, if_neg (not_not.2 hstate), if_neg (not_lt.2 hfibn)]
  · have hlegal := (legalWidth_iff w).2 ⟨hw, hw'⟩
    rw [exec_bbread, exec_bbpeek]
    exact ⟨fieldRead_view_faults _ hlegal hview hle hpast, fieldRead_view_faults _ hlegal hview hle hpast⟩
  · show execMscparse id s = _
    rw [execMscparse_of_legal_id hid, mscParseRow_of_payload hrow hview (by omega), mscVerdict, if_pos hcrc,
      if_neg (not_lt.2 hfits), State.reading, if_neg (not_le.2 hpast)]

end Sys2Proof.Machine

/-! Runs from two states that differ in the contents of the bit store, of `HOLD` and of `FIBMEM`: they take the same
branch of every check, so no status depends on the contents; and contents that 10_state.md R43 calls unobservable never
show. -/

namespace Sys2Proof.Machine

/-! ### Two answers that agree -/

/-- The state with other contents of the bit store, of `HOLD` and of `FIBMEM`. -/
def State.withContents (s : State) (m : Memory) (hold : Fib) (fibmem : Vector Fib 4) : State :=
  { s with bit := m, hold := hold, fibmem := fibmem }

/-- Where the first result is a next state, so is the second, and the two states are related by `P`. -/
def AgreeOn (P : State → State → Prop) (r r' : Result) : Prop := ∀ t, r = .next t → ∃ t', r' = .next t' ∧ P t t'

section Agree

variable {P : State → State → Prop}

theorem agreeOn_next {t t' : State} (h : P t t') : AgreeOn P (.next t) (.next t') := by
  intro u hu
  cases hu
  exact ⟨t', rfl, h⟩

theorem agreeOn_fault (e : Fault) (r : Result) : AgreeOn P (.fault e) r := nofun

theorem agreeOn_ite {c : Prop} [Decidable c] {a a' b b' : Result} (hpos : c → AgreeOn P a a')
    (hneg : ¬c → AgreeOn P b b') : AgreeOn P (if c then a else b) (if c then a' else b') := by
  split_ifs with hc
  · exact hpos hc
  · exact hneg hc

/-! ### The same branch of every check

Each lemma takes what an accepted command does as a hypothesis, under the bounds that the checks have established. -/

variable {s : State} {m : Memory} {hold : Fib} {fibmem : Vector Fib 4}
variable (hraise : ∀ st, P (s.raise st) ((s.withContents m hold fibmem).raise st))
include hraise

theorem fieldRead_agreeOn {target : Target} {w : BitVec 8} {after after' : Operand → Result}
    (hafter : ∀ addr, addr + w.toNat ≤ s.bbwr → AgreeOn P
      (after (BitVec.ofNat 64 (Memory.readBits s.bit addr w.toNat)))
      (after' (BitVec.ofNat 64 (Memory.readBits m addr w.toNat)))) :
    AgreeOn P (fieldRead target w s after) (fieldRead target w (s.withContents m hold fibmem) after') := by
  have hwindow : (s.withContents m hold fibmem).window target = s.window target := by cases target <;> rfl
  unfold fieldRead
  rw [hwindow]
  refine agreeOn_ite (fun _ => ?_) fun _ => agreeOn_next (hraise _)
  cases s.window target with
  | none => exact agreeOn_next (hraise _)
  | some win =>
    exact agreeOn_ite (fun _ => agreeOn_ite (hafter _) fun _ => agreeOn_fault _ _) fun _ => agreeOn_next (hraise _)

theorem crcCommand_agreeOn {start length : Operand} {result : Crc → Operand}
    (hok : start.toNat + length.toNat ≤ s.bbwr → P
      (s.respond (result (crc16 s.cfg.crcXorout (Memory.bytesAt s.bit start.toNat (length.toNat / 8)))))
      ((s.withContents m hold fibmem).respond
        (result (crc16 s.cfg.crcXorout (Memory.bytesAt m start.toNat (length.toNat / 8)))))) :
    AgreeOn P (crcCommand start length s result)
      (crcCommand start length (s.withContents m hold fibmem) result) :=
  agreeOn_ite
    (fun _ => agreeOn_ite
      (fun _ => agreeOn_ite (fun hin => agreeOn_next (hok hin)) fun _ => agreeOn_fault _ _)
      fun _ => agreeOn_next (hraise _))
    fun _ => agreeOn_next (hraise _)

theorem execBbrem_agreeOn {target : Target}
    (hok : ∀ v, P (s.respond v) ((s.withContents m hold fibmem).respond v)) :
    AgreeOn P (execBbrem target s) (execBbrem target (s.withContents m hold fibmem)) := by
  have hwindow : (s.withContents m hold fibmem).window target = s.window target := by cases target <;> rfl
  unfold execBbrem
  rw [hwindow]
  cases s.window target with
  | none => exact agreeOn_next (hraise _)
  | some win => exact agreeOn_next (hok _)

theorem execFiblatch_agreeOn
    (hok : s.bbrd + 256 ≤ s.bbwr → P
      ({ s with hold := Memory.fibAt s.bit s.bbrd, bbrd := s.bbrd + 256, fstate := .fibComplete }.respond 0)
      ({ s.withContents m hold fibmem with
        hold := Memory.fibAt m s.bbrd, bbrd := s.bbrd + 256, fstate := .fibComplete }.respond 0)) :
    AgreeOn P (execFiblatch s) (execFiblatch (s.withContents m hold fibmem)) :=
  agreeOn_ite (fun _ => agreeOn_next (hraise _)) fun _ =>
    agreeOn_ite (fun _ => agreeOn_next (hraise _)) fun _ =>
      agreeOn_ite (fun _ => agreeOn_next (hraise _)) fun _ =>
        agreeOn_ite (fun hin => agreeOn_next (hok hin)) fun _ => agreeOn_fault _ _

theorem execFibcommit_agreeOn
    (hok : s.fstate = .fibComplete → s.fibn < 4 → P
      (s.appendFib.respond (boolResult (fibValid s.cfg.crcXorout s.hold)))
      ((s.withContents m hold fibmem).appendFib.respond (boolResult (fibValid s.cfg.crcXorout hold)))) :
    AgreeOn P (execFibcommit s) (execFibcommit (s.withContents m hold fibmem)) :=
  agreeOn_ite (fun _ => agreeOn_next (hraise _)) fun hstate =>
    agreeOn_ite (fun hfibn => agreeOn_next (hok (not_not.1 hstate) hfibn)) fun _ => agreeOn_fault _ _

theorem execMscparse_agreeOn {id : BitVec 8}
    (hflag : ∀ (record : MscRecord) (v : Bool), P ({ s with msc := record }.respond (boolResult v))
      ({ s.withContents m hold fibmem with msc := record }.respond (boolResult v)))
    (hcrc : ∀ (record : Bool → MscRecord) (plen : Nat), s.view.base + (plen + 16) ≤ s.bbwr →
      let v := mscCrcMatches s.cfg.crcXorout s.bit s.view.base plen
      let v' := mscCrcMatches s.cfg.crcXorout m s.view.base plen
      P ({ s with msc := record v }.respond (boolResult v))
        ({ s.withContents m hold fibmem with msc := record v' }.respond (boolResult v'))) :
    AgreeOn P (execMscparse id s) (execMscparse id (s.withContents m hold fibmem)) := by
  refine agreeOn_ite (fun _ => ?_) fun _ => agreeOn_next (hraise _)
  refine agreeOn_ite (fun _ => agreeOn_next (hraise _)) fun _ => ?_
  refine agreeOn_ite (fun _ => agreeOn_next (hraise _)) fun _ => ?_
  refine agreeOn_ite (fun _ => agreeOn_next (hraise _)) fun _ => ?_
  refine agreeOn_ite (fun _ => ?_) fun _ => agreeOn_next (hflag _ true)
  refine agreeOn_ite (fun _ => agreeOn_next (hflag _ false)) fun _ => ?_
  exact agreeOn_ite (fun hin => agreeOn_next (hcrc (fun v => ⟨true, id, s.view.base, _, _, v⟩) _ hin))
    fun _ => agreeOn_fault _ _

end Agree

/-! ### The status -/

/-- The two states carry responses of the same status. -/
def SameStatus (t t' : State) : Prop := t'.rsp.map Response.status = t.rsp.map Response.status

/-- Settles O21: no check reads the contents, and every accepted command answers `OK`. -/
theorem statusIsIndependentOfContents : Obligations.StatusIsIndependentOfContents := by
  intro i s t m hold fibmem h
  suffices hagree : AgreeOn SameStatus (exec i s) (exec i (s.withContents m hold fibmem)) from hagree t h
  have hraise (st : Status) : SameStatus (s.raise st) ((s.withContents m hold fibmem).raise st) := rfl
  have hok (u u' : State) (v v' : Operand) : SameStatus (u.respond v) (u'.respond v') := rfl
  cases i with
  | rdsr n => exact agreeOn_ite (fun _ => agreeOn_next (hok ..)) fun _ => agreeOn_next (hraise _)
  | bbwrite w v =>
    exact agreeOn_ite (fun _ => agreeOn_ite (fun _ => agreeOn_next (hok ..)) fun _ => agreeOn_next (hraise _))
      fun _ => agreeOn_next (hraise _)
  | bbread target w =>
    rw [exec_bbread, exec_bbread]
    exact fieldRead_agreeOn hraise fun _ _ => agreeOn_next (hok ..)
  | bbpeek target w =>
    rw [exec_bbpeek, exec_bbpeek]
    exact fieldRead_agreeOn hraise fun _ _ => agreeOn_next (hok ..)
  | bbrem target => exact execBbrem_agreeOn hraise fun _ => hok ..
  | bbreset => exact agreeOn_next (hok ..)
  | bbslice start length => exact agreeOn_ite (fun _ => agreeOn_next (hok ..)) fun _ => agreeOn_next (hraise _)
  | crccomp start length => exact crcCommand_agreeOn hraise fun _ => hok ..
  | crcverify exp start length =>
    rw [exec_crcverify, exec_crcverify]
    exact crcCommand_agreeOn hraise fun _ => hok ..
  | ficcfg n =>
    exact agreeOn_ite (fun _ => agreeOn_ite (fun _ => agreeOn_next (hok ..)) fun _ => agreeOn_next (hraise _))
      fun _ => agreeOn_next (hraise _)
  | ficnew => exact agreeOn_next (hok ..)
  | fiblatch => exact execFiblatch_agreeOn hraise fun _ => hok ..
  | fibcommit => exact execFibcommit_agreeOn hraise fun _ _ => hok ..
  | fibrd idx off => exact agreeOn_ite (fun _ => agreeOn_next (hraise _)) fun _ => agreeOn_next (hok ..)
  | msccfg hc id plen =>
    exact agreeOn_ite (fun _ => agreeOn_ite (fun _ => agreeOn_next (hraise _)) fun _ => agreeOn_next (hok ..))
      fun _ => agreeOn_next (hraise _)
  | mscparse id => exact execMscparse_agreeOn hraise (fun _ _ => hok ..) fun _ _ _ => hok ..

/-! ### The unobservable contents -/

theorem SameObservable.refl (s : State) : SameObservable s s :=
  ⟨rfl, fun _ _ => rfl, fun _ => rfl, fun _ _ => rfl⟩

/-- The relation that a step keeps: the same observable state, and a second bit store in canonical form. -/
def Indistinct (t t' : State) : Prop := SameObservable t t' ∧ Memory.wf t'.bit

section Indistinct

variable {s : State} {m : Memory} {hold : Fib} {fibmem : Vector Fib 4}

/-- A change elsewhere keeps the relation, as long as it shows nothing that was hidden: it does not raise `BBWR` or
`FIBN`, nor enter `FIB_COMPLETE`. -/
theorem Indistinct.elsewhere (h : Indistinct s (s.withContents m hold fibmem)) {u : State}
    (hbit : u.bit = s.bit := by rfl) (hhold : u.hold = s.hold := by rfl) (hfibmem : u.fibmem = s.fibmem := by rfl)
    (hbbwr : u.bbwr ≤ s.bbwr := by exact le_rfl)
    (hstate : u.fstate = .fibComplete → s.fstate = .fibComplete := by exact fun hu => hu)
    (hfibn : u.fibn ≤ s.fibn := by exact le_rfl) : Indistinct u (u.withContents m hold fibmem) := by
  obtain ⟨⟨-, hbits, hheld, hfibs⟩, hwf⟩ := h
  refine ⟨⟨rfl, fun a ha => ?_, fun hu => ?_, fun k hk => ?_⟩, hwf⟩
  · rw [hbit]
    exact hbits a (ha.trans_le hbbwr)
  · rw [hhold]
    exact hheld (hstate hu)
  · rw [hfibmem]
    exact hfibs k (hk.trans_le hfibn)

variable (h : Indistinct s (s.withContents m hold fibmem))
include h

/-- Written bits are the same in both stores. -/
theorem Indistinct.getBit_eq {addr k : Nat} (hk : addr + k < s.bbwr) :
    Memory.getBit s.bit (addr + k) = Memory.getBit m (addr + k) :=
  (h.1.same_bits _ hk).symm

theorem Indistinct.readBits_eq {addr n : Nat} (hin : addr + n ≤ s.bbwr) :
    Memory.readBits m addr n = Memory.readBits s.bit addr n :=
  (Memory.readBits_congr _ _ _ _ fun _ _ => h.getBit_eq (by omega)).symm

theorem Indistinct.bytesAt_eq {addr count : Nat} (hin : addr + 8 * count ≤ s.bbwr) :
    Memory.bytesAt m addr count = Memory.bytesAt s.bit addr count :=
  (Memory.bytesAt_congr _ _ _ _ fun _ _ => h.getBit_eq (by omega)).symm

theorem Indistinct.fibAt_eq {addr : Nat} (hin : addr + 256 ≤ s.bbwr) : Memory.fibAt m addr = Memory.fibAt s.bit addr :=
  (Memory.fibAt_congr _ _ _ fun _ _ => h.getBit_eq (by omega)).symm

theorem Indistinct.mscCrcMatches_eq (xorout : Crc) {base plen : Nat} (hin : base + (plen + 16) ≤ s.bbwr) :
    mscCrcMatches xorout m base plen = mscCrcMatches xorout s.bit base plen := by
  rw [mscCrcMatches, mscCrcMatches, h.bytesAt_eq (by omega), h.readBits_eq (by omega)]

/-- BBWRITE stores the same bits in both, and the bits below them were the same. -/
theorem Indistinct.bbwrite (hwf : Memory.wf s.bit) (n v : Nat) :
    Indistinct ({ s with bit := Memory.writeBits s.bit s.bbwr n v, bbwr := s.bbwr + n }.respond 0)
      ({ s.withContents m hold fibmem with bit := Memory.writeBits m s.bbwr n v, bbwr := s.bbwr + n }.respond 0) := by
  refine ⟨⟨rfl, fun a ha => ?_, h.1.same_hold, h.1.same_fibs⟩, Memory.writeBits_wf _ _ _ _ h.2⟩
  have hlt : a < s.bbwr + n := ha
  have hwf' : Memory.wf m := h.2
  show Memory.getBit (Memory.writeBits m s.bbwr n v) a = Memory.getBit (Memory.writeBits s.bit s.bbwr n v) a
  rw [Memory.getBit_writeBits _ _ _ _ _ hwf', Memory.getBit_writeBits _ _ _ _ _ hwf]
  split_ifs
  · rfl
  · exact h.1.same_bits a (by omega)

/-- FIBLATCH takes the same FIB from both, all of it written bits. -/
theorem Indistinct.fiblatch (hin : s.bbrd + 256 ≤ s.bbwr) :
    Indistinct ({ s with hold := Memory.fibAt s.bit s.bbrd, bbrd := s.bbrd + 256, fstate := .fibComplete }.respond 0)
      ({ s.withContents m hold fibmem with
        hold := Memory.fibAt m s.bbrd, bbrd := s.bbrd + 256, fstate := .fibComplete }.respond 0) :=
  ⟨⟨rfl, h.1.same_bits, fun _ => h.fibAt_eq hin, h.1.same_fibs⟩, h.2⟩

/-- FIBCOMMIT appends the same FIB to both, as the latched one was the same, and leaves `FIB_COMPLETE`. -/
theorem Indistinct.fibcommit (hstate : s.fstate = .fibComplete) :
    Indistinct (s.appendFib.respond (boolResult (fibValid s.cfg.crcXorout s.hold)))
      ((s.withContents m hold fibmem).appendFib.respond (boolResult (fibValid s.cfg.crcXorout hold))) := by
  obtain rfl : hold = s.hold := h.1.same_hold hstate
  refine ⟨⟨rfl, h.1.same_bits, fun hcomplete => ?_, fun k hk => ?_⟩, h.2⟩
  · rw [State.respond_fstate, State.appendFib_fstate] at hcomplete
    split_ifs at hcomplete
  · have hlt : k.val < s.fibn + 1 := hk
    have hfibs := h.1.same_fibs k
    simp only [State.respond_fibmem, appendFib_fibmem_getElem]
    split_ifs with hother hother'
    · rfl
    · exact absurd hother hother'
    · exact absurd ‹_› hother
    · exact hfibs (by omega)

/-- Every command answers two indistinct states alike and keeps them so. -/
theorem Indistinct.exec_agreeOn (hwf : Memory.wf s.bit) (i : Instr) :
    AgreeOn Indistinct (exec i s) (exec i (s.withContents m hold fibmem)) := by
  have hraise (st : Status) : Indistinct (s.raise st) ((s.withContents m hold fibmem).raise st) :=
    h.elsewhere
  have hrespond (v : Operand) : Indistinct (s.respond v) ((s.withContents m hold fibmem).respond v) :=
    h.elsewhere
  cases i with
  | rdsr n => exact agreeOn_ite (fun _ => agreeOn_next (hrespond _)) fun _ => agreeOn_next (hraise _)
  | bbwrite w v =>
    exact agreeOn_ite (fun _ => agreeOn_ite (fun _ => agreeOn_next (h.bbwrite hwf _ _)) fun _ => agreeOn_next (hraise _))
      fun _ => agreeOn_next (hraise _)
  | bbread target w =>
    rw [exec_bbread, exec_bbread]
    refine fieldRead_agreeOn hraise fun addr hin => agreeOn_next ?_
    rw [h.readBits_eq hin]
    cases target <;> exact h.elsewhere
  | bbpeek target w =>
    rw [exec_bbpeek, exec_bbpeek]
    refine fieldRead_agreeOn hraise fun addr hin => agreeOn_next ?_
    rw [h.readBits_eq hin]
    exact hrespond _
  | bbrem target => exact execBbrem_agreeOn hraise hrespond
  | bbreset => exact agreeOn_next (h.elsewhere (hbbwr := Nat.zero_le _))
  | bbslice start length =>
    exact agreeOn_ite (fun _ => agreeOn_next h.elsewhere) fun _ => agreeOn_next (hraise _)
  | crccomp start length =>
    refine crcCommand_agreeOn hraise fun hin => ?_
    rw [h.bytesAt_eq (by omega)]
    exact hrespond _
  | crcverify exp start length =>
    rw [exec_crcverify, exec_crcverify]
    refine crcCommand_agreeOn hraise fun hin => ?_
    rw [h.bytesAt_eq (by omega)]
    exact hrespond _
  | ficcfg n =>
    exact agreeOn_ite
      (fun _ => agreeOn_ite (fun _ => agreeOn_next h.elsewhere) fun _ => agreeOn_next (hraise _))
      fun _ => agreeOn_next (hraise _)
  | ficnew => exact agreeOn_next (h.elsewhere (hstate := nofun) (hfibn := Nat.zero_le _))
  | fiblatch => exact execFiblatch_agreeOn hraise h.fiblatch
  | fibcommit => exact execFibcommit_agreeOn hraise fun hstate _ => h.fibcommit hstate
  | fibrd idx off =>
    refine agreeOn_ite (fun _ => agreeOn_next (hraise _)) fun hidx => agreeOn_next ?_
    have hrecord : fibmem[idx.toNat] = s.fibmem[idx.toNat] := h.1.same_fibs idx.toFin (not_le.1 hidx)
    show Indistinct _ ((s.withContents m hold fibmem).respond ((fibmem[idx.toNat][off.toNat]).setWidth 64))
    rw [hrecord]
    exact hrespond _
  | msccfg hc id plen =>
    exact agreeOn_ite
      (fun _ => agreeOn_ite (fun _ => agreeOn_next (hraise _)) fun _ => agreeOn_next h.elsewhere)
      fun _ => agreeOn_next (hraise _)
  | mscparse id =>
    refine execMscparse_agreeOn hraise (fun _ _ => h.elsewhere) fun record plen hin => ?_
    simp only [h.mscCrcMatches_eq s.cfg.crcXorout hin]
    exact h.elsewhere

end Indistinct

/-- Settles O16: the two states have the same events, so they take the same one; a reset gives both the same state, and
of a command's answer nothing shows. -/
theorem unspecifiedContentsAreUnobservable : Obligations.UnspecifiedContentsAreUnobservable := by
  intro s s' hi hwf hsame
  obtain ⟨m, hold, fibmem, rfl⟩ : ∃ m hold fibmem, s' = s.withContents m hold fibmem :=
    ⟨_, _, _, hsame.same_fields⟩
  have h : Indistinct s (s.withContents m hold fibmem) := ⟨hsame, hwf⟩
  suffices hagree : AgreeOn Indistinct (step s) (step (s.withContents m hold fibmem)) by
    obtain ⟨t, ht⟩ := noStepStopsUnderTheInvariants s hi
    obtain ⟨t', ht', hsame', hwf'⟩ := hagree t ht
    exact ⟨t, t', ht, ht', hsame', hwf'⟩
  rcases inbox_cases s.inbox with hin | ⟨rest, hin⟩ | ⟨tr, rest, hin⟩
  · rw [step_of_idle hin, step_of_idle (s := s.withContents m hold fibmem) hin]
    exact agreeOn_next h.elsewhere
  · rw [step_of_reset hin, step_of_reset (s := s.withContents m hold fibmem) hin]
    exact agreeOn_next ⟨SameObservable.refl _, reset_memory_wf s.cfg⟩
  · have htaken : Indistinct { s with inbox := rest } (State.withContents { s with inbox := rest } m hold fibmem) :=
      h.elsewhere
    cases hdec : decode tr with
    | error e =>
      rw [step_of_illegal_word hin hdec, step_of_illegal_word (s := s.withContents m hold fibmem) hin hdec]
      exact agreeOn_next h.elsewhere
    | ok i =>
      rw [step_of_command hin hdec, step_of_command (s := s.withContents m hold fibmem) hin hdec]
      exact htaken.exec_agreeOn hi.store.1 i

end Sys2Proof.Machine

/-! Ill-formed commands, and the equivalences between commands of the BitBuffer (40_bitbuffer.md section 2): the
obligations on ILLEGAL_OPERAND, on BBREM, BBPEEK and BBREAD, and on fields written and read back. -/

namespace Sys2Proof.Machine

/-! ### Ill-formed commands -/

/-- A command has the cause of ILLEGAL_OPERAND exactly where it is ill-formed (30_encoding.md R82). -/
theorem operandCause_iff (i : Instr) (s : State) : operandCause s i ↔ i.wellFormed s.cfg = false := by
  have width (w : BitVec 8) : (w.toNat < 1 ∨ 64 < w.toNat) ↔ (1#8 ≤ w && w ≤ 64#8) = false := by
    simp only [Bool.and_eq_false_iff, decide_eq_false_iff_not, BitVec.le_def, BitVec.toNat_ofNat, not_le]
  have whole (l : Operand) : l.toNat % 8 ≠ 0 ↔ (l % 8#64 == 0#64) = false := by
    simp [← BitVec.toNat_inj]
  cases i with
  | rdsr n => simp [operandCause, Instr.wellFormed, BitVec.le_def]
  | bbwrite w v => exact width w
  | bbread target w => exact width w
  | bbpeek target w => exact width w
  | crccomp start length => exact whole length
  | crcverify exp start length => exact whole length
  | ficcfg n => simp [operandCause, Instr.wellFormed, ← BitVec.toNat_inj]
  | msccfg hc id plen =>
    simp only [operandCause, Instr.wellFormed, Bool.and_eq_false_iff, Bool.or_eq_false_iff, decide_eq_false_iff_not,
      Bool.not_eq_false', not_lt, whole]
  | mscparse id => simp [operandCause, Instr.wellFormed]
  | bbrem _ | bbreset | bbslice _ _ | ficnew | fiblatch | fibcommit | fibrd _ _ =>
    simp [operandCause, Instr.wellFormed]

theorem crcCommand_of_partial_byte {start length : Operand} {s : State} (result : Crc → Operand)
    (h : length.toNat % 8 ≠ 0) : crcCommand start length s result = .next (s.raise .illegalOperand) := by
  simp [crcCommand, wholeBytes, h]

/-- A command with that cause is answered so whatever the state, as its check comes first (60_exceptions.md R227). -/
theorem exec_of_operandCause {i : Instr} {s : State} (h : operandCause s i) :
    exec i s = .next (s.raise .illegalOperand) := by
  cases i with
  | rdsr n => exact exec_rdsr_of_no_register s h
  | bbwrite w v => exact execBbwrite_of_illegal_width v (legalWidth_of_outside h)
  | bbread target w => rw [exec_bbread, fieldRead_of_illegal_width _ (legalWidth_of_outside h)]
  | bbpeek target w => rw [exec_bbpeek, fieldRead_of_illegal_width _ (legalWidth_of_outside h)]
  | crccomp start length => exact crcCommand_of_partial_byte _ h
  | crcverify exp start length => rw [exec_crcverify, crcCommand_of_partial_byte _ h]
  | ficcfg n => exact execFiccfg_of_illegal_count h
  | msccfg hc id plen => exact execMsccfg_of_illegal h
  | mscparse id => exact execMscparse_of_illegal_id h
  | bbrem _ | bbreset | bbslice _ _ | ficnew | fiblatch | fibcommit | fibrd _ _ => exact h.elim

/-- Settles O19: the cause of ILLEGAL_OPERAND is the ill-formed command, and it is the first check. -/
theorem illegalOperandComesBeforeStateErrors : Obligations.IllegalOperandComesBeforeStateErrors := by
  refine fun i s => ⟨fun hwf => exec_of_operandCause ((operandCause_iff i s).2 hwf), fun hwf t r h hr hst => ?_⟩
  have hcause := exec_statusCause h hr
  rw [hst] at hcause
  exact absurd (hwf.symm.trans ((operandCause_iff i s).1 hcause)) (by decide)

/-! ### BBREM, BBPEEK and BBREAD -/

/-- Under the invariants BBREAD answers `OK` exactly where the window holds the field. -/
theorem exec_bbread_ok_iff {s : State} (hi : Inv s) (target : Target) (w : BitVec 8) :
    (∃ (t : State) (v : Operand), exec (.bbread target w) s = .next t ∧ t.rsp = some ⟨.ok, v⟩) ↔
      1 ≤ w.toNat ∧ w.toNat ≤ 64 ∧ ∃ win, s.window target = some win ∧ win.rd + w.toNat ≤ win.limit := by
  rw [exec_bbread]
  constructor
  · rintro ⟨t, v, h, hok⟩
    rcases fieldRead_cases target w s fun v => .next ((s.advance w.toNat target).respond v) with
      ⟨-, e⟩ | ⟨-, -, e⟩ | ⟨win, hw, hwin, ⟨-, e⟩ | ⟨-, -, e⟩ | ⟨hle, -⟩⟩
    · cases e.symm.trans h
      cases hok
    · cases e.symm.trans h
      cases hok
    · cases e.symm.trans h
      cases hok
    · cases e.symm.trans h
    · obtain ⟨hlo, hhi⟩ := (legalWidth_iff w).1 hw
      exact ⟨hlo, hhi, win, hwin, hle⟩
  · rintro ⟨hlo, hhi, win, hwin, hle⟩
    obtain ⟨v, -, hanswer⟩ := fieldRead_of_enough (fun v => .next ((s.advance w.toNat target).respond v))
      ((legalWidth_iff w).2 ⟨hlo, hhi⟩) hwin hle (hi.window_le hwin).2
    exact ⟨_, v, hanswer, rfl⟩

/-- Under the invariants BBREM answers `OK` with at least `n` exactly where the window holds `n` bits. -/
theorem exec_bbrem_ok_iff {s : State} (hi : Inv s) (target : Target) (n : Nat) :
    (∃ (u : State) (r : Operand), exec (.bbrem target) s = .next u ∧ u.rsp = some ⟨.ok, r⟩ ∧ n ≤ r.toNat) ↔
      ∃ win, s.window target = some win ∧ win.rd + n ≤ win.limit := by
  have hexec : exec (.bbrem target) s = execBbrem target s := rfl
  rw [hexec]
  rcases hwin : s.window target with _ | win
  · rw [execBbrem_of_no_view hwin]
    refine iff_of_false ?_ (by simp)
    rintro ⟨u, r, h, hok, -⟩
    cases h
    cases hok
  · obtain ⟨v, hanswer, hcount⟩ := execBbrem_of_window hwin
    have hsum := hcount hi
    rw [hanswer]
    constructor
    · rintro ⟨u, r, h, hok, hle⟩
      cases h
      cases hok
      exact ⟨win, rfl, by omega⟩
    · rintro ⟨win', heq, hle⟩
      cases heq
      exact ⟨_, v, rfl, rfl, by omega⟩

/-- Settles O32: both are decided by the bits left in the same window. -/
theorem readSucceedsExactlyWhenBbremAllows : Obligations.ReadSucceedsExactlyWhenBbremAllows := by
  intro target w s hi
  rw [exec_bbread_ok_iff hi, exec_bbrem_ok_iff hi]

/-- What follows a read has no part in whether a field is read: the answer is one error, one fault, or one field. -/
theorem fieldRead_uniform (target : Target) (w : BitVec 8) (s : State) :
    (∃ st, ∀ after, fieldRead target w s after = .next (s.raise st)) ∨
      (∃ e, ∀ after, fieldRead target w s after = .fault e) ∨ ∃ v, ∀ after, fieldRead target w s after = after v := by
  unfold fieldRead
  split_ifs with hw
  · cases s.window target with
    | none => exact .inl ⟨_, fun _ => rfl⟩
    | some win =>
      by_cases hle : win.rd + w.toNat ≤ win.limit
      · by_cases hin : win.base + win.rd + w.toNat ≤ s.bbwr
        · exact .inr (.inr ⟨_, fun _ => (if_pos hle).trans (reading_of_le _ hin)⟩)
        · exact .inr (.inl ⟨_, fun _ => (if_pos hle).trans (if_neg hin)⟩)
      · exact .inl ⟨_, fun _ => if_neg hle⟩
  · exact .inl ⟨_, fun _ => rfl⟩

/-- Settles O35: the two share the read, and BBPEEK changes the response alone, which BBREAD does not read. -/
theorem peekAgreesWithRead : Obligations.PeekAgreesWithRead := by
  intro target w s p hpeek
  rw [exec_bbpeek] at hpeek
  suffices hread : ∃ r, exec (.bbread target w) s = .next r ∧ p = { s with rsp := r.rsp } by
    obtain ⟨r, hr, rfl⟩ := hread
    exact ⟨r, r, hr, (exec_ignores_rsp _ s _).trans hr, rfl, rfl⟩
  rw [exec_bbread]
  rcases fieldRead_uniform target w s with ⟨st, h⟩ | ⟨e, h⟩ | ⟨v, h⟩
  · rw [h] at hpeek ⊢
    cases hpeek
    exact ⟨_, rfl, rfl⟩
  · rw [h] at hpeek
    cases hpeek
  · rw [h] at hpeek ⊢
    cases hpeek
    exact ⟨_, rfl, rfl⟩

/-! ### One field written and read back -/

/-- What a field reads after it was written: the low bits of the value (40_bitbuffer.md section 2). -/
theorem Memory.readBits_writeBits {m : Memory} (hwf : Memory.wf m) (addr n v : Nat) :
    Memory.readBits (Memory.writeBits m addr n v) addr n = v % 2 ^ n := by
  induction n generalizing v with
  | zero => simp [Memory.readBits, Nat.mod_one]
  | succ n ih =>
    have hwf' := Memory.writeBits_wf m addr n (v / 2) hwf
    have hhigh : Memory.readBits (Memory.setBit (Memory.writeBits m addr n (v / 2)) (addr + n) (v % 2 == 1)) addr n
        = v / 2 % 2 ^ n := by
      rw [← ih (v / 2)]
      exact Memory.readBits_congr _ _ _ _ fun k hk => by rw [Memory.getBit_setBit _ _ _ _ hwf', if_neg (by omega)]
    have hlow : (v % 2 == 1).toNat = v % 2 := by
      rcases Nat.mod_two_eq_zero_or_one v with h | h <;> simp [h]
    rw [Memory.writeBits, Memory.readBits, hhigh, Memory.getBit_setBit _ _ _ _ hwf', if_pos rfl, hlow, pow_succ',
      Nat.mod_mul, Nat.add_comm]

theorem exec_bbwrite_of_room {w : BitVec 8} {s : State} (v : Operand) (hlo : 1 ≤ w.toNat) (hhi : w.toNat ≤ 64)
    (hroom : s.bbwr + w.toNat ≤ s.cfg.capBits) :
    exec (.bbwrite w v) s = .next ({ s with
      bit := Memory.writeBits s.bit s.bbwr w.toNat v.toNat, bbwr := s.bbwr + w.toNat }.respond 0) :=
  execBbwrite_of_room v ((legalWidth_iff w).2 ⟨hlo, hhi⟩) hroom

theorem exec_bbread_buffer_of_enough {w : BitVec 8} {s : State} (hlo : 1 ≤ w.toNat) (hhi : w.toNat ≤ 64)
    (hle : s.bbrd + w.toNat ≤ s.bbwr) :
    exec (.bbread .buffer w) s = .next ((s.advance w.toNat .buffer).respond
      (BitVec.ofNat 64 (Memory.readBits s.bit s.bbrd w.toNat))) := by
  have hw : legalWidth w = true := (legalWidth_iff w).2 ⟨hlo, hhi⟩
  simp [exec_bbread, fieldRead, hw, hle, State.reading]

/-- Settles O36: BBWRITE writes at `BBWR`, where the cursor of BBREAD stands. -/
theorem writeThenReadReturnsTheValue : Obligations.WriteThenReadReturnsTheValue := by
  intro w v s hwf hempty hlo hhi hroom
  have hwrite := exec_bbwrite_of_room v hlo hhi hroom
  have hread := exec_bbread_buffer_of_enough (s := { s with
      bit := Memory.writeBits s.bit s.bbwr w.toNat v.toNat, bbwr := s.bbwr + w.toNat }.respond 0) hlo hhi
    (Nat.add_le_add_right hempty.le _)
  have hfield : Memory.readBits (Memory.writeBits s.bit s.bbwr w.toNat v.toNat) s.bbrd w.toNat
      = v.toNat % 2 ^ w.toNat := by rw [hempty, Memory.readBits_writeBits hwf]
  simp only [State.respond_bit, State.respond_bbrd, hfield] at hread
  refine ⟨_, _, hwrite, rfl, hread, rfl, ?_, fun hfits => ?_⟩
  · simp [hempty]
  · rw [State.respond_rsp, Nat.mod_eq_of_lt hfits, BitVec.ofNat_toNat, BitVec.setWidth_eq]

/-! ### Runs of commands -/

section Runs

variable {i : Instr} {rest later : List Instr} {s t u : State} {r : Response} {rs rs' : List Response}

theorem runCommands_cons (h : exec i s = .next t) (hr : t.rsp = some r) (hrest : runCommands rest t = some (rs, u)) :
    runCommands (i :: rest) s = some (r :: rs, u) := by
  simp [runCommands, h, hr, hrest]

theorem runCommands_cons_inv (h : runCommands (i :: rest) s = some (rs, u)) :
    ∃ t r rs', exec i s = .next t ∧ t.rsp = some r ∧ runCommands rest t = some (rs', u) ∧ rs = r :: rs' := by
  unfold runCommands at h
  split at h
  next t hexec =>
    split at h
    next r rs' _ hr hrest =>
      cases h
      exact ⟨t, r, rs', hexec, hr, hrest, rfl⟩
    next => cases h
  next => cases h

theorem runCommands_append (h : runCommands rest s = some (rs, t)) (hlater : runCommands later t = some (rs', u)) :
    runCommands (rest ++ later) s = some (rs ++ rs', u) := by
  induction rest generalizing s rs with
  | nil =>
    cases h
    exact hlater
  | cons i rest ih =>
    obtain ⟨t₁, r, rs₁, hexec, hr, hrest, rfl⟩ := runCommands_cons_inv h
    exact runCommands_cons hexec hr (ih hrest)

end Runs

/-! ### A list of fields -/

/-- The bits that a list of fields takes. -/
def totalWidth (fields : List (BitVec 8 × Operand)) : Nat := (fields.map fun f => f.1.toNat).sum

@[simp] theorem totalWidth_nil : totalWidth [] = 0 := rfl

@[simp] theorem totalWidth_cons (f : BitVec 8 × Operand) (fields : List (BitVec 8 × Operand)) :
    totalWidth (f :: fields) = f.1.toNat + totalWidth fields := List.sum_cons

/-- The store holds the fields one after another from a bit address on, each cut to its width. -/
def HoldsFields (m : Memory) : Nat → List (BitVec 8 × Operand) → Prop
  | _, [] => True
  | addr, f :: fields =>
    Memory.readBits m addr f.1.toNat = f.2.toNat % 2 ^ f.1.toNat ∧ HoldsFields m (addr + f.1.toNat) fields

theorem runCommands_bbwrites {fields : List (BitVec 8 × Operand)} {s : State} (hwf : Memory.wf s.bit)
    (hlegal : ∀ f ∈ fields, 1 ≤ f.1.toNat ∧ f.1.toNat ≤ 64) (hroom : s.bbwr + totalWidth fields ≤ s.cfg.capBits) :
    ∃ t : State,
      runCommands (fields.map fun f => Instr.bbwrite f.1 f.2) s = some (fields.map fun _ => ⟨.ok, 0⟩, t) ∧
      t.bbwr = s.bbwr + totalWidth fields ∧ t.bbrd = s.bbrd ∧
      (∀ a < s.bbwr, Memory.getBit t.bit a = Memory.getBit s.bit a) ∧ HoldsFields t.bit s.bbwr fields := by
  induction fields generalizing s with
  | nil => exact ⟨s, rfl, rfl, rfl, fun _ _ => rfl, trivial⟩
  | cons f fields ih =>
    rw [totalWidth_cons] at hroom ⊢
    obtain ⟨⟨hlo, hhi⟩, hlegal⟩ := List.forall_mem_cons.1 hlegal
    have hwrite := exec_bbwrite_of_room f.2 hlo hhi (by omega : s.bbwr + f.1.toNat ≤ s.cfg.capBits)
    obtain ⟨t, hrun, hbbwr, hbbrd, hbelow, hholds⟩ := ih
      (s := { s with
        bit := Memory.writeBits s.bit s.bbwr f.1.toNat f.2.toNat, bbwr := s.bbwr + f.1.toNat }.respond 0)
      (Memory.writeBits_wf _ _ _ _ hwf) hlegal (by simp only [State.respond_bbwr, State.respond_cfg]; omega)
    simp only [State.respond_bbwr, State.respond_bbrd, State.respond_bit] at hbbwr hbbrd hbelow hholds
    refine ⟨t, runCommands_cons hwrite rfl hrun, by omega, hbbrd, fun a ha => ?_, ?_, hholds⟩
    · rw [hbelow a (by omega), Memory.getBit_writeBits _ _ _ _ _ hwf, if_neg (by omega)]
    · rw [← Memory.readBits_writeBits hwf s.bbwr]
      exact Memory.readBits_congr _ _ _ _ fun k hk => hbelow _ (by omega)

theorem runCommands_bbreads {fields : List (BitVec 8 × Operand)} {s : State}
    (hlegal : ∀ f ∈ fields, 1 ≤ f.1.toNat ∧ f.1.toNat ≤ 64) (hin : s.bbrd + totalWidth fields ≤ s.bbwr)
    (hholds : HoldsFields s.bit s.bbrd fields) :
    ∃ t : State,
      runCommands (fields.map fun f => Instr.bbread .buffer f.1) s
        = some (fields.map fun f => ⟨.ok, BitVec.ofNat 64 (f.2.toNat % 2 ^ f.1.toNat)⟩, t) ∧
      t.bbwr = s.bbwr ∧ t.bbrd = s.bbrd + totalWidth fields := by
  induction fields generalizing s with
  | nil => exact ⟨s, rfl, rfl, rfl⟩
  | cons f fields ih =>
    rw [totalWidth_cons] at hin ⊢
    obtain ⟨⟨hlo, hhi⟩, hlegal⟩ := List.forall_mem_cons.1 hlegal
    obtain ⟨hfield, hholds⟩ := hholds
    have hread := exec_bbread_buffer_of_enough hlo hhi (by omega : s.bbrd + f.1.toNat ≤ s.bbwr)
    rw [hfield] at hread
    obtain ⟨t, hrun, hbbwr, hbbrd⟩ := ih (s := (s.advance f.1.toNat .buffer).respond _) hlegal
      (by simp only [State.respond_bbrd, State.respond_bbwr, State.advance_buffer_bbrd, State.advance_bbwr]; omega)
      hholds
    simp only [State.respond_bbwr, State.respond_bbrd, State.advance_bbwr, State.advance_buffer_bbrd] at hbbwr hbbrd
    exact ⟨t, runCommands_cons hread rfl hrun, hbbwr, by omega⟩

/-- Settles O37: the writes leave the fields one after another from the read cursor on, and the reads take them so. -/
theorem writtenFieldsReadBackInOrder : Obligations.WrittenFieldsReadBackInOrder := by
  intro fields s hwf hempty hlegal hroom
  obtain ⟨t, hwrites, hbbwr, hbbrd, -, hholds⟩ := runCommands_bbwrites hwf hlegal hroom
  rw [← hempty, ← hbbrd] at hholds
  obtain ⟨u, hreads, hbbwr', hbbrd'⟩ := runCommands_bbreads hlegal (by omega) hholds
  exact ⟨u, runCommands_append hwrites hreads, hbbwr'.trans hbbwr, by omega⟩

/-! ### The payload of an MSC record -/

/-- Settles O52: the payload is within the written bits, so its base and length fit their operands. -/
theorem parsedPayloadCanBeSliced : Obligations.ParsedPayloadCanBeSliced := by
  intro s hi hpresent
  have hend := hi.msc.1 hpresent
  have hlt := hi.bbwr_lt
  have hbase : (BitVec.ofNat 64 s.msc.base).toNat = s.msc.base := Nat.mod_eq_of_lt (by omega)
  have hlen : (BitVec.ofNat 64 s.msc.len).toNat = s.msc.len := Nat.mod_eq_of_lt (by omega)
  have hslice := execBbslice_of_within (s := s) (start := BitVec.ofNat 64 s.msc.base)
    (length := BitVec.ofNat 64 s.msc.len) (by rwa [hbase, hlen])
  rwa [hbase, hlen] at hslice

end Sys2Proof.Machine

/-! The CRC (41_crc.md) and the validity of a FIB (42_frame_fic.md R160, R161): the table's step as eight bit steps, and
the obligations about FIB validity. -/

namespace Sys2Proof.Machine

/-! ### The bit steps -/

/-- A shift of the register with a message word in it is the bit step on the word's top bit, with the rest of the word
one place up. -/
theorem crcShift_xor_message (c x : Crc) : crcShift (c ^^^ x) = crcBitStep c (x.getLsbD 15) ^^^ x <<< 1 := by
  unfold crcShift crcBitStep
  rw [BitVec.getLsbD_xor, BitVec.shiftLeft_xor_distrib]
  split_ifs
  · ac_rfl
  · rw [BitVec.xor_zero]

/-- Eight shifts take the message word's upper byte, most significant bit first. -/
theorem repeatCrc_crcShift_xor_message (c x : Crc) :
    repeatCrc crcShift 8 (c ^^^ x)
      = [7, 6, 5, 4, 3, 2, 1, 0].foldl (fun c k => crcBitStep c (x.getLsbD (8 + k))) c ^^^ x <<< 8 := by
  simp only [repeatCrc, crcShift_xor_message, List.foldl_cons, List.foldl_nil, BitVec.getLsbD_shiftLeft,
    ← BitVec.shiftLeft_add]
  simp

/-- Settles O38: the byte enters in the high half of the register, with zeros below it. -/
theorem tableStepIsEightBitSteps : Obligations.TableStepIsEightBitSteps := by
  intro c b
  have hbits (k : Nat) : (b ++ 0#8).getLsbD (8 + k) = b.getLsbD k := by
    rw [BitVec.getLsbD_append, if_neg (by omega), Nat.add_sub_cancel_left]
  have hzero : (b ++ 0#8) <<< 8 = 0#16 := by
    refine BitVec.eq_of_getLsbD_eq fun j hj => ?_
    rw [BitVec.getLsbD_shiftLeft, BitVec.getLsbD_append, if_pos (by omega)]
    simp
  rw [crcStep_eq_repeatCrc, repeatCrc_crcShift_xor_message, hzero, BitVec.xor_zero]
  simp only [hbits]

/-! ### A FIB's payload and CRC field -/

theorem payload_eq_map (f : Fib) : Fib.payload f = (List.finRange 30).map fun j => f[j.val] := by
  refine List.ext_getElem (by simp [Fib.payload]) fun j hj hj' => ?_
  simp [Fib.payload]

theorem crcField_toNat (f : Fib) : (Fib.crcField f).toNat = f[30].toNat * 256 + f[31].toNat :=
  toNat_append_eq_add f[30] f[31]

theorem fibValid_iff (xorout : Crc) (f : Fib) :
    fibValid xorout f = true ↔ crc16 xorout (Fib.payload f) = Fib.crcField f := beq_iff_eq

/-- Settles O42: a 16-bit word is determined by its value. -/
theorem fibValidityIsTheCrcComparison : Obligations.FibValidityIsTheCrcComparison := by
  intro xorout f
  rw [fibValid_iff, payload_eq_map, ← BitVec.toNat_inj, crcField_toNat]

theorem Fib.toList_set (f : Fib) {j : Nat} (hj : j < 32) (b : Byte) :
    (f.set j b).toList = f.toList.set j b := Vector.toList_set hj

/-- A write in the CRC field leaves the payload. -/
theorem payload_set_of_crc (f : Fib) {j : Nat} (hj : j < 32) (b : Byte) (hcrc : 30 ≤ j) :
    Fib.payload (f.set j b) = Fib.payload f := by
  rw [Fib.payload, Fib.toList_set, List.take_set_of_le hcrc, Fib.payload]

/-- A write in the payload is a change of one of its bytes. -/
theorem payload_set_of_payload (f : Fib) {j : Nat} (hj : j < 30) (b : Byte) :
    Fib.payload (f.set j b) = (Fib.payload f).take j ++ b :: (Fib.payload f).drop (j + 1) := by
  have hlen : j < (Fib.payload f).length := by simpa [Fib.payload] using hj
  rw [Fib.payload, Fib.toList_set, List.take_set, List.set_eq_take_append_cons_drop]
  exact if_pos hlen

theorem payload_eq_split (f : Fib) {j : Nat} (hj : j < 30) :
    Fib.payload f = (Fib.payload f).take j ++ f[j] :: (Fib.payload f).drop (j + 1) := by
  rw [← payload_set_of_payload f hj, Vector.set_getElem_self]

/-- A changed payload byte changes the CRC of the payload, and leaves the CRC field. -/
theorem fibValid_set_payload {xorout : Crc} {f : Fib} {j : Nat} (hj : j < 30) {b : Byte} (hne : f[j] ≠ b)
    (hvalid : fibValid xorout f = true) : fibValid xorout (f.set j b) = false := by
  rw [fibValid_iff] at hvalid
  have hfield : Fib.crcField (f.set j b) = Fib.crcField f := by
    simp only [Fib.crcField]
    rw [Vector.getElem_set_ne, Vector.getElem_set_ne] <;> omega
  have hcrc := crc16_ne_of_byte_ne xorout ((Fib.payload f).take j) ((Fib.payload f).drop (j + 1)) hne
  rw [← payload_eq_split f hj, ← payload_set_of_payload f hj] at hcrc
  rw [Bool.eq_false_iff, ne_eq, fibValid_iff, hfield, ← hvalid]
  exact hcrc.symm

/-- A changed byte of the CRC field leaves the payload. -/
theorem fibValid_set_crc {xorout : Crc} {f : Fib} {j : Nat} (hj : j < 32) (hcrc : 30 ≤ j) {b : Byte} (hne : f[j] ≠ b)
    (hvalid : fibValid xorout f = true) : fibValid xorout (f.set j b) = false := by
  rw [fibValid_iff] at hvalid
  have hvalue : f[j].toNat ≠ b.toNat := BitVec.toNat_inj.not.2 hne
  rw [Bool.eq_false_iff, ne_eq, fibValid_iff, payload_set_of_crc f hj b hcrc, hvalid, ← BitVec.toNat_inj,
    crcField_toNat, crcField_toNat]
  obtain rfl | rfl : j = 30 ∨ j = 31 := by omega
  · rw [Vector.getElem_set_self, Vector.getElem_set_ne _ _ (by decide)]
    omega
  · rw [Vector.getElem_set_self, Vector.getElem_set_ne _ _ (by decide)]
    omega

/-- Settles O43: the field written is the CRC of the payload, which the writes leave; a flipped bit changes one byte. -/
theorem ownCrcValidatesAndOneFlippedBitDoesNot : Obligations.OwnCrcValidatesAndOneFlippedBitDoesNot := by
  intro xorout f
  constructor
  · rw [fibValid_iff, payload_set_of_crc _ _ _ (by decide), payload_set_of_crc _ _ _ (by decide)]
    have hpayload : f.toList.take 30 = Fib.payload f := rfl
    rw [Fib.crcField, Vector.getElem_set_self, Vector.getElem_set_ne _ _ (by decide), Vector.getElem_set_self, hpayload]
    exact (BitVec.extractLsb'_append_extractLsb' (w := 8) (len := 8)).symm
  · intro hvalid j k hk
    have hflip : f[j] ≠ f[j] ^^^ (1#8 <<< k) := fun h => by
      simpa [hk] using congrArg (BitVec.getLsbD · k) h
    by_cases hj : j.val < 30
    · exact fibValid_set_payload hj hflip hvalid
    · exact fibValid_set_crc j.isLt (not_lt.1 hj) hflip hvalid

end Sys2Proof.Machine

/-! A frame from FICNEW to its last FIB (42_frame_fic.md section 4): what `n` pairs of FIBLATCH and FIBCOMMIT have
assembled, kept by one more pair, and the obligation about a whole frame. -/

namespace Sys2Proof.Machine

/-- FIB `k` from the read cursor of `s` on, and its validity. -/
def State.nextFib (s : State) (k : Nat) : Fib := Memory.fibAt s.bit (s.bbrd + 256 * k)

/-- `t` is `s` with a frame begun and its next `n` FIBs appended, each with its validity and the flag with all of
them. -/
structure Assembled (s : State) (n : Nat) (t : State) : Prop where
  cfg : t.cfg = s.cfg
  bit : t.bit = s.bit
  bbwr : t.bbwr = s.bbwr
  fibcount : t.fibcount = s.fibcount
  bbrd : t.bbrd = s.bbrd + 256 * n
  fibn : t.fibn = n
  fstate : t.fstate = if n = s.fibcount then .frameComplete else .awaitingFib
  fibs : ∀ k : Fin 4, k.val < n → t.fibmem[k] = s.nextFib k ∧ t.fibvalid[k] = fibValid s.cfg.crcXorout (s.nextFib k)
  frame : t.framevalid = true ↔ ∀ k : Fin 4, k.val < n → fibValid s.cfg.crcXorout (s.nextFib k) = true

/-- FICNEW begins a frame of no FIBs. -/
theorem assembled_ficnew {s : State} (hcount : s.fibcount ≠ 0) :
    ∃ t, exec .ficnew s = .next t ∧ t.rsp = some ⟨.ok, 0⟩ ∧ Assembled s 0 t := by
  refine ⟨_, rfl, rfl, rfl, rfl, rfl, rfl, rfl, rfl, ?_, fun k hk => absurd hk (Nat.not_lt_zero _), ?_⟩
  · rw [if_neg (Ne.symm hcount)]
    rfl
  · exact iff_of_true rfl fun k hk => absurd hk (Nat.not_lt_zero _)

section Pair

variable {s t : State} {n : Nat}

/-- What FIBLATCH leaves of an incomplete frame with a FIB unread. -/
theorem Assembled.fiblatch (h : Assembled s n t) (hn : n < s.fibcount) (hbits : s.bbrd + 256 * n + 256 ≤ s.bbwr) :
    exec .fiblatch t = .next ({ t with
      hold := s.nextFib n, bbrd := s.bbrd + 256 * n + 256, fstate := .fibComplete }.respond 0) := by
  have hcount : t.fibcount ≠ 0 := by rw [h.fibcount]; omega
  have hstate : t.fstate = .awaitingFib := h.fstate.trans (if_neg hn.ne)
  have hunread : 256 ≤ t.bbwr - t.bbrd := by rw [h.bbwr, h.bbrd]; omega
  have hhold : Memory.fibAt t.bit t.bbrd = s.nextFib n := by rw [h.bit, h.bbrd, State.nextFib]
  have hlatch := execFiblatch_of_enough hcount hstate hunread
  rwa [hhold, h.bbrd] at hlatch

/-- What FIBCOMMIT leaves of the frame after that: one more FIB. -/
theorem Assembled.appendFib (h : Assembled s n t) (hn : n < s.fibcount) (hfour : s.fibcount ≤ 4) :
    Assembled s (n + 1)
      (State.appendFib { t with hold := s.nextFib n, bbrd := s.bbrd + 256 * n + 256, fstate := .fibComplete }) := by
  obtain ⟨hcfg, hbit, hbbwr, hcount, -, hfibn, -, hfibs, hframe⟩ := h
  subst hfibn
  have hvalid : fibValid t.cfg.crcXorout (s.nextFib t.fibn) = fibValid s.cfg.crcXorout (s.nextFib t.fibn) := by rw [hcfg]
  have hbbrd : s.bbrd + 256 * t.fibn + 256 = s.bbrd + 256 * (t.fibn + 1) := by omega
  refine ⟨hcfg, hbit, hbbwr, hcount, hbbrd, rfl, ?_, fun k hk => ?_, ?_⟩
  · rw [State.appendFib_fstate]
    show (if t.fibn + 1 < t.fibcount then FState.awaitingFib else .frameComplete) = _
    rw [hcount]
    simp only [show t.fibn + 1 < s.fibcount ↔ ¬t.fibn + 1 = s.fibcount by omega, ite_not]
  · rw [appendFib_fibmem_getElem, appendFib_fibvalid_getElem]
    show (if t.fibn = k.val then _ else t.fibmem[k]) = _ ∧ (if t.fibn = k.val then _ else t.fibvalid[k]) = _
    by_cases hlast : t.fibn = k.val
    · rw [if_pos hlast, if_pos hlast, ← hlast]
      exact ⟨rfl, hvalid⟩
    · rw [if_neg hlast, if_neg hlast]
      exact hfibs k (by omega)
  · rw [State.appendFib_framevalid, Bool.and_eq_true]
    show t.framevalid = true ∧ fibValid t.cfg.crcXorout (s.nextFib t.fibn) = true ↔ _
    rw [hvalid, hframe]
    constructor
    · rintro ⟨hbefore, hlast⟩ k hk
      rcases Nat.lt_succ_iff_lt_or_eq.1 hk with hlt | heq
      · exact hbefore k hlt
      · rw [heq]
        exact hlast
    · intro hall
      exact ⟨fun k hk => hall k (by omega), hall ⟨t.fibn, by omega⟩ (Nat.lt_succ_self _)⟩

/-- One more pair appends one more FIB, with two `OK` responses. -/
theorem Assembled.fibPush (h : Assembled s n t) (hn : n < s.fibcount) (hfour : s.fibcount ≤ 4)
    (hbits : s.bbrd + 256 * n + 256 ≤ s.bbwr) :
    ∃ (t' u : State) (v : Operand), exec .fiblatch t = .next t' ∧ t'.rsp = some ⟨.ok, 0⟩ ∧
      exec .fibcommit t' = .next u ∧ u.rsp = some ⟨.ok, v⟩ ∧ Assembled s (n + 1) u := by
  have hfibn : t.fibn < 4 := by rw [h.fibn]; omega
  obtain ⟨hcfg, hbit, hbbwr, hcount, hbbrd, hfibn', hstate, hfibs, hframe⟩ := h.appendFib hn hfour
  exact ⟨_, _, _, h.fiblatch hn hbits, rfl, execFibcommit_of_latched rfl hfibn, rfl,
    hcfg, hbit, hbbwr, hcount, hbbrd, hfibn', hstate, hfibs, hframe⟩

end Pair

/-- `m` more pairs append `m` more FIBs, and every response is `OK`. -/
theorem Assembled.fibPushes {s t : State} {n : Nat} (h : Assembled s n t) (m : Nat) (hm : n + m ≤ s.fibcount)
    (hfour : s.fibcount ≤ 4) (hbits : s.bbrd + 256 * (n + m) ≤ s.bbwr) :
    ∃ (rs : List Response) (u : State), runCommands (fibPushes m) t = some (rs, u) ∧ rs.length = 2 * m ∧
      (∀ r ∈ rs, r.status = .ok) ∧ Assembled s (n + m) u := by
  induction m generalizing n t with
  | zero => exact ⟨[], t, rfl, rfl, nofun, h⟩
  | succ m ih =>
    rw [← Nat.add_assoc, Nat.add_right_comm] at hm hbits ⊢
    obtain ⟨t', u, v, hlatch, hlatchRsp, hcommit, hcommitRsp, hu⟩ := h.fibPush (by omega) hfour (by omega)
    obtain ⟨rs, w, hrun, hlen, hok, hw⟩ := ih hu hm (by omega)
    refine ⟨_, w, runCommands_cons hlatch hlatchRsp (runCommands_cons hcommit hcommitRsp hrun), ?_, ?_, hw⟩
    · simp only [List.length_cons, hlen]
      omega
    · simpa using hok

/-- Settles O49: FICNEW begins the frame and the pairs assemble it. -/
theorem frameCompletesAfterItsFibs : Obligations.FrameCompletesAfterItsFibs := by
  intro s n hcount hn hbits
  obtain ⟨t, hnew, hnewRsp, ht⟩ := assembled_ficnew (s := s) (by omega)
  obtain ⟨rs, u, hrun, hlen, hok, hu⟩ := ht.fibPushes n (by omega) (by omega) (by omega)
  rw [Nat.zero_add] at hu
  obtain ⟨hcfg, hbit, hbbwr, -, hbbrd, hfibn, hstate, hfibs, hframe⟩ := hu
  refine ⟨_, u, runCommands_cons hnew hnewRsp hrun, ?_, ?_, hfibn, hbbrd, hstate, fun k hk => ?_, ?_⟩
  · rw [List.length_cons, hlen, Nat.add_comm]
  · simpa using hok
  · obtain ⟨hmem, hvalid⟩ := hfibs k hk
    rw [hvalid, hmem]
    exact ⟨Memory.fibAt_isField s.bit _, rfl⟩
  · rw [hframe]
    exact forall₂_congr fun k hk => by rw [(hfibs k hk).2]

end Sys2Proof.Machine
